-- ==== Sys2Proof/Word.lean ====
section
/-! DEFINITION. The word type of the core and the name of a register. -/

namespace Sys2Proof

/-- A 32-bit value: a register, the pc, a data word, an instruction word (00_scope.md R7, R11). Its
`+` and `-` are modulo 2^32, as R11 says. -/
abbrev Word := BitVec 32

/-- The index of a general register, 0 to 31 (10_state.md R26, R32). -/
abbrev RegIdx := Fin 32

end Sys2Proof
end

