-- ==== Sys2Proof/Machine/BitField.lean ====
section
/-! DEFINITION. The Bit Field Codec (10_state.md R41): field extraction, sign extension, the fields of
an instruction word and the parts of an address. -/

namespace Sys2Proof

/-- `extractField(word, startBit, endBit)` is `word[endBit:startBit]`, right-justified (00_scope.md
R10). Its width is the number of bits, so the result fits (30_encoding.md R96). -/
def extractField (w : Word) (startBit endBit : Nat) : BitVec (endBit - startBit + 1) :=
  BitVec.extractLsb endBit startBit w

/-- `sext_32(h)` of a 16-bit value (00_scope.md R12). -/
def sext32 (h : BitVec 16) : Word := h.signExtend 32

/-- The source's `signExtend16` of a 32-bit container: the bits above bit 15 are ignored
(00_scope.md R12). -/
def signExtend16 (h : Word) : Word := sext32 (extractField h 0 15)

/-! The fields of 30_encoding.md R91. -/

def opcodeOf (w : Word) : BitVec 6 := extractField w 26 31

/-- A 5-bit field names a register, so it is never out of range (10_state.md R32). -/
def regField (f : BitVec 5) : RegIdx := ⟨f.toNat, f.isLt⟩

def rsOf (w : Word) : RegIdx := regField (extractField w 21 25)

def rtOf (w : Word) : RegIdx := regField (extractField w 16 20)

def rdOf (w : Word) : RegIdx := regField (extractField w 11 15)

def functOf (w : Word) : BitVec 6 := extractField w 0 5

def imm16Of (w : Word) : BitVec 16 := extractField w 0 15

def jfieldOf (w : Word) : BitVec 26 := extractField w 0 25

/-- A multiple of 4: bits [1:0] are zero (00_scope.md R15, "word-aligned address"). -/
def isAligned (a : Word) : Bool := extractField a 0 1 == 0#2

/-- `a[31:2]`, the index of the word that byte address `a` selects (20_memory.md R61, R62). -/
def wordIndex (a : Word) : Nat := (extractField a 2 31).toNat

/-- The address has no non-zero bit at or above the width a memory decodes (20_memory.md R64). -/
def addressInRange (bits : Nat) (a : Word) : Bool := decide (a.toNat < 2 ^ bits)

end Sys2Proof
end

