-- ==== Sys2Proof/Config.lean ====
section
/-! DEFINITION. What one implementation fixes (00_scope.md R8) and the free value of the spec. The
standard values of the parameters stand in Machine/Parameters.lean. -/

namespace Sys2Proof

/-- What a data address with non-zero bits [1:0] does: parameter DMEM_MISALIGN of 00_scope.md R8,
20_memory.md R72 and 93_implementation_defined.md U3. -/
inductive MisalignPolicy where
  /-- Bits [1:0] are ignored. -/
  | truncate
  /-- The access is refused: the cautious reading of U3. -/
  | refuse
deriving DecidableEq, Repr

/-- The implementation parameters the source leaves open, one field per row of 00_scope.md R8, under
the row's name. ALU_UNDEF is not here: it is the free value `Config.draw32`. -/
structure Config where
  /-- OP_LW -/
  opLw : BitVec 6
  /-- OP_SW -/
  opSw : BitVec 6
  /-- OP_RTYPE -/
  opRtype : BitVec 6
  /-- OP_BEQ -/
  opBeq : BitVec 6
  /-- OP_J -/
  opJ : BitVec 6
  /-- FN_SUB -/
  fnSub : BitVec 6
  /-- FN_AND -/
  fnAnd : BitVec 6
  /-- FN_OR -/
  fnOr : BitVec 6
  /-- FN_SLT -/
  fnSlt : BitVec 6
  /-- ZERO_REG_HARDWIRED (10_state.md R27, 40_cycle_datapath.md R149) -/
  zeroRegHardwired : Bool
  /-- SLT_SIGNED (41_register_type.md R165) -/
  sltSigned : Bool
  /-- DMEM_ADDR_BITS: how many byte-address bits the data memory decodes (20_memory.md R62, R64) -/
  dmemAddrBits : Nat
  /-- IMEM_ADDR_BITS: how many byte-address bits the instruction memory decodes (R61, R64) -/
  imemAddrBits : Nat
  /-- DMEM_MISALIGN -/
  dmemMisalign : MisalignPolicy
  /-- RESET_PC (10_state.md R50) -/
  resetPc : Word
  /-- RESET_REG (R51) -/
  resetReg : Word
  /-- RESET_CLEARS_MEM (70_reset_and_hazards.md R240, R242) -/
  resetClearsMem : Bool
deriving DecidableEq, Repr

/-- The free value `draw32()` of 00_scope.md R13 and 41_register_type.md R166: the ALU result of an
unmatched function code. Its arguments are the number of the evaluation (the counter
`State.drawCount`: "each execution of such an instruction draws anew"), the function code and the two
ALU operands ("the draw may or may not depend on the operands"). It has no body, so nothing can be
proved of its values. Log entry 4; safe. -/
opaque Config.draw32 : Nat → BitVec 6 → Word → Word → Word

end Sys2Proof
end

