-- ==== Sys2Proof/Machine/Parameters.lean ====
section
/-! DEFINITION. The standard values of the implementation parameters (00_scope.md R7, R8) and the
constraints the spec puts on any choice of them. -/

namespace Sys2Proof

/-- FN_ADD, the one function code the source prints (00_scope.md R7): fixed, not a parameter. -/
def fnAdd : BitVec 6 := 0x20#6

/-- The standard configuration: the column "default" of 00_scope.md R8. The opcode numbers and the
function codes other than FN_ADD are the spec's own, "from general knowledge, not in source" (R9).
Marks: PRESUMED, log entries 1 and 2 (numbers) and 5 (SLT); DESIGN CHOICE, log entries 3, 7, 8, 9, 10
and 11; unsafe, as each entry says. -/
def Config.standard : Config where
  opLw := 0x23#6
  opSw := 0x2B#6
  opRtype := 0x00#6
  opBeq := 0x04#6
  opJ := 0x02#6
  fnSub := 0x22#6
  fnAnd := 0x24#6
  fnOr := 0x25#6
  fnSlt := 0x2A#6
  zeroRegHardwired := false
  sltSigned := true
  dmemAddrBits := 32
  imemAddrBits := 32
  dmemMisalign := .truncate
  resetPc := 0x00000000#32
  resetReg := 0x00000000#32
  resetClearsMem := true

/-- The five opcode parameters. -/
def Config.opcodes (c : Config) : List (BitVec 6) := [c.opLw, c.opSw, c.opRtype, c.opBeq, c.opJ]

/-- The five function codes. -/
def Config.functionCodes (c : Config) : List (BitVec 6) :=
  [fnAdd, c.fnSub, c.fnAnd, c.fnOr, c.fnSlt]

/-- What 00_scope.md R8 requires of any choice of the numbers: the opcodes pairwise distinct and the
function codes pairwise distinct. -/
abbrev Config.NumbersDistinct (c : Config) : Prop :=
  c.opcodes.Nodup ∧ c.functionCodes.Nodup

/-- "RESET_PC must be a multiple of 4" (10_state.md R50). -/
abbrev Config.ResetPcAligned (c : Config) : Prop := c.resetPc.toNat % 4 = 0

/-- Neither memory is narrowed, so no 32-bit address is out of range (20_memory.md R61, R62). -/
abbrev Config.FullMemories (c : Config) : Prop := c.dmemAddrBits = 32 ∧ c.imemAddrBits = 32

end Sys2Proof
end

