-- ==== Sys2Proof/Syntax.lean ====
section
/-! DEFINITION. The instructions: one constructor per row of spec/opcode_table.json. -/

namespace Sys2Proof

/-- An instruction as 30_encoding.md R102 decodes it. Register-type operands stand in the order of
the assembler syntax (R112): rd, rs, rt; loads and stores as rt, rs, immediate. -/
inductive Instr where
  /-- LW xt, imm(xs): 42_load_store.md R180 -/
  | lw (rt rs : RegIdx) (imm16 : BitVec 16)
  /-- SW xt, imm(xs): 42_load_store.md R181 -/
  | sw (rt rs : RegIdx) (imm16 : BitVec 16)
  /-- ADD xd, xs, xt: 41_register_type.md R161 -/
  | add (rd rs rt : RegIdx)
  /-- SUB xd, xs, xt: R162 -/
  | sub (rd rs rt : RegIdx)
  /-- AND xd, xs, xt: R163 -/
  | and (rd rs rt : RegIdx)
  /-- OR xd, xs, xt: R164 -/
  | or (rd rs rt : RegIdx)
  /-- SLT xd, xs, xt: R165 -/
  | slt (rd rs rt : RegIdx)
  /-- BEQ xs, xt, off: 43_control_transfer.md R190 -/
  | beq (rs rt : RegIdx) (imm16 : BitVec 16)
  /-- J target: 43_control_transfer.md R191 -/
  | j (jfield : BitVec 26)
  /-- RTYPE_UNDEF, the register-type opcode with an unmatched function code: 41_register_type.md R166 -/
  | rtypeUndef (rd rs rt : RegIdx) (funct : BitVec 6)
  /-- UNREC, any word whose opcode is none of the five: 44_unrecognized.md R200. The whole word is
  kept, as in R102 "UNREC (w)", and no bit of it has a meaning. -/
  | unrec (word : Word)
deriving DecidableEq, Repr

/-- The row's name in spec/opcode_table.json. -/
def Instr.mnemonic : Instr → String
  | .lw .. => "LW"
  | .sw .. => "SW"
  | .add .. => "ADD"
  | .sub .. => "SUB"
  | .and .. => "AND"
  | .or .. => "OR"
  | .slt .. => "SLT"
  | .beq .. => "BEQ"
  | .j .. => "J"
  | .rtypeUndef .. => "RTYPE_UNDEF"
  | .unrec .. => "UNREC"

end Sys2Proof
end

