-- ==== Sys2Proof/WellFormed.lean ====
section
/-! DEFINITION. Which instruction terms an instruction word can stand for. -/

namespace Sys2Proof

/-- Every field of a term has its encoding's width by type, so two checks remain: an unmatched
function code is none of the five (30_encoding.md R107) and an unrecognized word's opcode is none of
the five (R106). -/
def Instr.wellFormed (i : Instr) (c : Config := Config.standard) : Bool :=
  match i with
  | .lw _ _ _ => true
  | .sw _ _ _ => true
  | .add _ _ _ => true
  | .sub _ _ _ => true
  | .and _ _ _ => true
  | .or _ _ _ => true
  | .slt _ _ _ => true
  | .beq _ _ _ => true
  | .j _ => true
  | .rtypeUndef _ _ _ funct => !c.functionCodes.contains funct
  | .unrec w => !c.opcodes.contains (opcodeOf w)

end Sys2Proof
end

