-- ==== Sys2Proof/Decode.lean ====
section
/-! DEFINITION. The decoder (30_encoding.md R102), total on the 2^32 words; the encoder (R92 to R94,
R112); the opcode table (R103); the assembler's label arithmetic (R112). -/

namespace Sys2Proof

/-- The register-type half of the decoder: exact match on the function code (30_encoding.md R101,
R102). Bits [10:6] are not read (R104). -/
def decodeRegisterType (w : Word) (c : Config := Config.standard) : Instr :=
  if functOf w = fnAdd then .add (rdOf w) (rsOf w) (rtOf w)
  else if functOf w = c.fnSub then .sub (rdOf w) (rsOf w) (rtOf w)
  else if functOf w = c.fnAnd then .and (rdOf w) (rsOf w) (rtOf w)
  else if functOf w = c.fnOr then .or (rdOf w) (rsOf w) (rtOf w)
  else if functOf w = c.fnSlt then .slt (rdOf w) (rsOf w) (rtOf w)
  else .rtypeUndef (rdOf w) (rsOf w) (rtOf w) (functOf w)

/-- `decode(w)` of 30_encoding.md R102: exact match on the opcode. It never fails; there is no
reserved encoding to reject by name (R105, R106, R109). -/
def decode (w : Word) (c : Config := Config.standard) : Instr :=
  if opcodeOf w = c.opLw then .lw (rtOf w) (rsOf w) (imm16Of w)
  else if opcodeOf w = c.opSw then .sw (rtOf w) (rsOf w) (imm16Of w)
  else if opcodeOf w = c.opBeq then .beq (rsOf w) (rtOf w) (imm16Of w)
  else if opcodeOf w = c.opJ then .j (jfieldOf w)
  else if opcodeOf w = c.opRtype then decodeRegisterType w c
  else .unrec w

/-- The 5-bit field that names a register. -/
def fieldOfReg (r : RegIdx) : BitVec 5 := BitVec.ofNat 5 r.val

/-- Register format (30_encoding.md R92): opcode, rs, rt, rd, bits [10:6], funct. The assembler
writes bits [10:6] as zero (R104; log entry 24). -/
def encodeRFormat (opcode : BitVec 6) (rs rt rd : RegIdx) (funct : BitVec 6) : Word :=
  opcode ++ fieldOfReg rs ++ fieldOfReg rt ++ fieldOfReg rd ++ 0#5 ++ funct

/-- Immediate format (30_encoding.md R93): opcode, rs, rt, imm16. -/
def encodeIFormat (opcode : BitVec 6) (rs rt : RegIdx) (imm16 : BitVec 16) : Word :=
  opcode ++ fieldOfReg rs ++ fieldOfReg rt ++ imm16

/-- Jump format (30_encoding.md R94): opcode, jfield. -/
def encodeJFormat (opcode : BitVec 6) (jfield : BitVec 26) : Word := opcode ++ jfield

/-- The word of an instruction (30_encoding.md R112). An unrecognized word is itself (".word v"). -/
def encode (i : Instr) (c : Config := Config.standard) : Word :=
  match i with
  | .lw rt rs imm16 => encodeIFormat c.opLw rs rt imm16
  | .sw rt rs imm16 => encodeIFormat c.opSw rs rt imm16
  | .add rd rs rt => encodeRFormat c.opRtype rs rt rd fnAdd
  | .sub rd rs rt => encodeRFormat c.opRtype rs rt rd c.fnSub
  | .and rd rs rt => encodeRFormat c.opRtype rs rt rd c.fnAnd
  | .or rd rs rt => encodeRFormat c.opRtype rs rt rd c.fnOr
  | .slt rd rs rt => encodeRFormat c.opRtype rs rt rd c.fnSlt
  | .beq rs rt imm16 => encodeIFormat c.opBeq rs rt imm16
  | .j jfield => encodeJFormat c.opJ jfield
  | .rtypeUndef rd rs rt funct => encodeRFormat c.opRtype rs rt rd funct
  | .unrec w => w

/-- The spec's canonical no-operation (30_encoding.md R109, R113): opcode 0x3F, all other bits zero. -/
def nopWord : Word := 0xFC000000#32

/-! The opcode table of 30_encoding.md R103, under the standard numbers. -/

/-- One row: a word is the row's instruction when `word & mask = pattern` and no row of smaller
priority number matches it. -/
structure OpcodeRow where
  mnemonic : String
  mask : Word
  pattern : Word
  priority : Nat
deriving DecidableEq, Repr

/-- The rows in the table's order, which is also the order of their priorities. -/
def opcodeTable : List OpcodeRow :=
  [ ⟨"LW", 0xFC000000#32, 0x8C000000#32, 1⟩,
    ⟨"SW", 0xFC000000#32, 0xAC000000#32, 1⟩,
    ⟨"ADD", 0xFC00003F#32, 0x00000020#32, 1⟩,
    ⟨"SUB", 0xFC00003F#32, 0x00000022#32, 1⟩,
    ⟨"AND", 0xFC00003F#32, 0x00000024#32, 1⟩,
    ⟨"OR", 0xFC00003F#32, 0x00000025#32, 1⟩,
    ⟨"SLT", 0xFC00003F#32, 0x0000002A#32, 1⟩,
    ⟨"BEQ", 0xFC000000#32, 0x10000000#32, 1⟩,
    ⟨"J", 0xFC000000#32, 0x08000000#32, 1⟩,
    ⟨"RTYPE_UNDEF", 0xFC000000#32, 0x00000000#32, 2⟩,
    ⟨"UNREC", 0x00000000#32, 0x00000000#32, 3⟩ ]

def OpcodeRow.selects (r : OpcodeRow) (w : Word) : Bool := w &&& r.mask == r.pattern

/-- The row says what `w` is: it matches `w` and no row of smaller priority number does
(30_encoding.md R103). -/
def OpcodeRow.decides (r : OpcodeRow) (w : Word) : Bool :=
  r.selects w && opcodeTable.all fun r' => !(decide (r'.priority < r.priority) && r'.selects w)

/-! The assembler's arithmetic of labels and targets (30_encoding.md R112). -/

/-- `off = (label - (address_of_BEQ + 4)) / 4`, "which must be an integer in range"
-32768 to 32767. DEDUCED (log entry 26): both the sum and the difference are of 32-bit values and so
modulo 2^32 (00_scope.md R11), and the difference is read signed before it is divided. -/
def assembleBranchOffset (address label : Word) : Option (BitVec 16) :=
  let distance : Int := (label - (address + 4#32)).toInt
  if distance % 4 = 0 ∧ -32768 ≤ distance / 4 ∧ distance / 4 ≤ 32767 then
    some (BitVec.ofInt 16 (distance / 4))
  else none

/-- `target[27:2]`; "requires target[1:0] = 0 and target[31:28] = (address_of_J + 4)[31:28]". -/
def assembleJumpField (address target : Word) : Option (BitVec 26) :=
  if isAligned target = true ∧ extractField target 28 31 = extractField (address + 4#32) 28 31 then
    some (extractField target 2 27)
  else none

/-- The host's question: what the decoder reads from a table word of `nbits` bits, the bits above
`nbits` zero. An instruction is one 32-bit word, stored as an atomic value (20_memory.md R75), so
its bits are the table's bits; a longer word is no instruction (30_encoding.md R111). -/
def decodeTableWord (nbits w : Nat) : Option Instr :=
  if nbits ≤ 32 then some (decode (BitVec.ofNat 32 (w % 2 ^ nbits))) else none

end Sys2Proof
end

