-- ==== Sys2Proof/Machine/Flags.lean ====
section
/-! DEFINITION. The one flag computation of the core. -/

namespace Sys2Proof.Machine

/-- The zero flag `result == 0`: a wire of the cycle, not state (10_state.md R34, 40_cycle_datapath.md
R137). There is no carry, overflow, sign or parity indication. -/
def zeroFlag (result : Word) : Bool := result == 0x00000000#32

end Sys2Proof.Machine
end

