-- ==== Sys2Proof/Machine/State.lean ====
section
/-! DEFINITION. The state of the machine, its reset value, and the reasons a step can stop. -/

namespace Sys2Proof.Machine

/-- One listed word of a memory: its word index and its value. The spec's memories are maps from word
index to 32-bit word and hold no bytes (20_memory.md R75, log entry 13). -/
abbrev Cell := Nat × Word

/-- The contents of a memory (10_state.md R38, R39) as the list of its cells in canonical form
(`Memory.wf` in Machine/Ops.lean); an unlisted word reads `Memory.unlisted`. -/
abbrev Memory := List Cell

/-- Why the machine stops with a fault. -/
inductive Fault where
  /-- An access beyond a narrowed DMEM_ADDR_BITS or IMEM_ADDR_BITS: `violate OutOfRangeAddress(a)` of
  20_memory.md R64 and 60_exceptions.md R214. Raised by fetch, LW, SW and a host load, only in a
  configuration that narrows a memory, never in the standard one. Safe: the machine stops. -/
  | outOfRangeAddress (a : Word)
deriving DecidableEq, Repr

/-- Why the model refuses a step. -/
inductive Refusal where
  /-- An instruction without a meaning yet. Raised by no arm: every instruction has its meaning.
  Safe. -/
  | notModelled (mnemonic : String)
  /-- `MisalignedStartPC` of 60_exceptions.md R214: the pc is not a multiple of 4. Raised by fetch.
  Safe, log entry 18. -/
  | misalignedPc (pc : Word)
  /-- A data address with non-zero bits [1:0] in a configuration with DMEM_MISALIGN = refuse
  (20_memory.md R72, 93_implementation_defined.md U3). Raised by LW and SW there, never in the standard
  configuration. Safe, log entry 11. -/
  | misalignedData (a : Word)
  /-- `RunAndLoad` of 60_exceptions.md R214: `run = 1` and `ld_en = 1` at one edge. Raised by
  `clockEdge`. Safe. -/
  | runAndLoad
  /-- `MisalignedLoadAddress` of 60_exceptions.md R214. Raised by a host load. Safe, log entry 12. -/
  | misalignedLoadAddress (a : Word)
deriving DecidableEq, Repr

/-- The architectural state, "exactly four things" (10_state.md R20), and one counter of the model's
own. -/
structure State where
  /-- The program counter (10_state.md R21). -/
  pc : Word
  /-- The general registers `x[0]` to `x[31]` (R26). -/
  regs : Vector Word 32
  /-- The data memory DMEM (R38). -/
  dmem : Memory
  /-- The instruction memory IMEM (R39), which the core only reads. -/
  imem : Memory
  /-- The model's own field, no state of the spec's: how many times `draw32()` has been evaluated
  (00_scope.md R13, log entry 4). Each evaluation reads `Config.draw32` at a new number. -/
  drawCount : Nat
deriving DecidableEq, Repr

/-- The machine right after reset from power-on (10_state.md R50 to R54, 70_reset_and_hazards.md
R240). Marks: DESIGN CHOICE, log entries 8 (pc), 9 (registers), 10 (memories) and 4 (`drawCount`);
unsafe, as each entry says. -/
def State.reset : State where
  pc := Config.standard.resetPc
  regs := Vector.replicate 32 Config.standard.resetReg
  dmem := []
  imem := []
  drawCount := 0

end Sys2Proof.Machine
end

