-- ==== Sys2Proof/Machine/Ops.lean ====
section
/-! DEFINITION. The named operations over memory, registers and the pc. -/

namespace Sys2Proof.Machine

/-- The result of an operation that may stop. -/
abbrev Result (α : Type) := Host.Outcome α Fault Refusal

/-- Go on with the value of an operation, or stop as it stopped. -/
def andThen {α β : Type} (o : Result α) (f : α → Result β) : Result β :=
  match o with
  | .next v => f v
  | .fault r => .fault r
  | .refused r => .refused r

/-! ## A memory: word index to word -/

/-- What a word reads that the host never loaded and no SW ever wrote (10_state.md R38, R39). -/
def Memory.unlisted : Word := 0x00000000#32

/-- The number of words of a memory (20_memory.md R61, R62). -/
def Memory.size : Nat := 2 ^ 30

/-- The word at an index. -/
def Memory.read : Memory → Nat → Word
  | [], _ => Memory.unlisted
  | (k, v) :: m, a => if k = a then v else Memory.read m a

/-- The list of one word, or of none where the word is what an unlisted index reads. -/
def Memory.cell (a : Nat) (v : Word) : Memory := if v = Memory.unlisted then [] else [(a, v)]

/-- Replace the word at an index, keeping the canonical form. -/
def Memory.write : Memory → Nat → Word → Memory
  | [], a, v => Memory.cell a v
  | (k, w) :: m, a, v =>
    if a < k then Memory.cell a v ++ (k, w) :: m
    else if a = k then Memory.cell a v ++ m
    else (k, w) :: Memory.write m a v

/-- The canonical form: indices strictly rising and below the size, and no entry equal to what an
unlisted index reads. -/
abbrev Memory.wf (m : Memory) : Prop :=
  m.Pairwise (fun p q => p.1 < q.1) ∧ ∀ p ∈ m, p.1 < Memory.size ∧ p.2 ≠ Memory.unlisted

/-! ## Registers -/

/-- `x[i]` (10_state.md R28). With ZERO_REG_HARDWIRED register 0 reads 0 (R27, 40_cycle_datapath.md
R149). -/
def State.readReg (s : State) (i : RegIdx) (c : Config := Config.standard) : Word :=
  if c.zeroRegHardwired = true ∧ i = 0 then 0x00000000#32 else s.regs[i.val]

/-- `x[i] <- v` (10_state.md R29). With ZERO_REG_HARDWIRED a write of register 0 has no effect. -/
def State.writeReg (s : State) (i : RegIdx) (v : Word) (c : Config := Config.standard) : State :=
  if c.zeroRegHardwired = true ∧ i = 0 then s else { s with regs := s.regs.set i.val v }

/-! ## The program counter -/

/-- `(pc + 4) mod 2^32` (10_state.md R23). -/
def State.pcPlus4 (s : State) : Word := s.pc + 4#32

/-- `pc <- t`. -/
def State.setPc (s : State) (t : Word) : State := { s with pc := t }

/-- `pc <- pc + 4`. -/
def State.advance (s : State) : State := s.setPc s.pcPlus4

/-- One more evaluation of `draw32()` is used up. -/
def State.countDraw (s : State) : State := { s with drawCount := s.drawCount + 1 }

/-! ## The access primitives -/

/-- The word index an address selects in a memory that decodes `bits` address bits, or the fault of
20_memory.md R64. -/
def memoryIndex (bits : Nat) (a : Word) : Result Nat :=
  if addressInRange bits a then .next (wordIndex a) else .fault (.outOfRangeAddress a)

/-- The word index a data address selects: bits [1:0] are ignored (20_memory.md R72), or the access
is refused where DMEM_MISALIGN says so. -/
def dataIndex (a : Word) (c : Config := Config.standard) : Result Nat :=
  if c.dmemMisalign = .refuse ∧ isAligned a = false then .refused (.misalignedData a)
  else memoryIndex c.dmemAddrBits a

/-- `MemRead(a, 4)` (20_memory.md R68). -/
def loadWord (a : Word) (s : State) (c : Config := Config.standard) : Result Word :=
  andThen (dataIndex a c) fun k => .next (s.dmem.read k)

/-- `MemWrite(a, 4, v)` (20_memory.md R69). -/
def storeWord (a v : Word) (s : State) (c : Config := Config.standard) : Result State :=
  andThen (dataIndex a c) fun k => .next { s with dmem := s.dmem.write k v }

/-- `IFetch(pc)` (20_memory.md R66). A misaligned pc, which no run reaches, is refused (R71,
60_exceptions.md R214; log entry 18). -/
def fetch (s : State) (c : Config := Config.standard) : Result Word :=
  if isAligned s.pc then andThen (memoryIndex c.imemAddrBits s.pc) fun k => .next (s.imem.read k)
  else .refused (.misalignedPc s.pc)

/-- Put a word into the instruction memory at the word an address selects. -/
def State.setInstruction (s : State) (a w : Word) : State :=
  { s with imem := s.imem.write (wordIndex a) w }

/-- Put a word into the data memory at the word an address selects. -/
def State.setData (s : State) (a w : Word) : State :=
  { s with dmem := s.dmem.write (wordIndex a) w }

end Sys2Proof.Machine
end

