-- ==== Sys2Proof/Machine/Operands.lean ====
section
/-! DEFINITION. The operand and target forms: effective address, branch target, jump target. -/

namespace Sys2Proof.Machine

/-- `(x[rs] + sext_32(imm16)) mod 2^32`, the one addressing mode (42_load_store.md R182). The
displacement counts bytes and is not scaled. -/
def effectiveAddress (rs : RegIdx) (imm16 : BitVec 16) (s : State) (c : Config := Config.standard) :
    Word :=
  s.readReg rs c + sext32 imm16

/-- `((imm32 << 2) + pc + 4) mod 2^32` (40_cycle_datapath.md R145, 43_control_transfer.md R192). -/
def branchTarget (pcPlus4 : Word) (imm16 : BitVec 16) : Word := (sext32 imm16 <<< 2) + pcPlus4

/-- `((pc + 4) & 0xF0000000) | (jfield << 2)` (40_cycle_datapath.md R145, 43_control_transfer.md
R193). -/
def jumpTarget (pcPlus4 : Word) (jfield : BitVec 26) : Word :=
  (pcPlus4 &&& 0xF0000000#32) ||| (jfield.zeroExtend 32 <<< 2)

end Sys2Proof.Machine
end

