-- ==== Sys2Proof/Machine/ControlTransfer.lean ====
section
/-! DEFINITION. The control transfers (43_control_transfer.md). -/

namespace Sys2Proof.Machine

/-- BEQ: 43_control_transfer.md R190. The zero flag of `x[rs] - x[rt]` selects the next pc. -/
def execBeq (rs rt : RegIdx) (imm16 : BitVec 16) (s : State) (c : Config := Config.standard) :
    Result State :=
  .next (s.setPc
    (if zeroFlag (s.readReg rs c - s.readReg rt c) then branchTarget s.pcPlus4 imm16 else s.pcPlus4))

/-- J: 43_control_transfer.md R191. -/
def execJ (jfield : BitVec 26) (s : State) : Result State :=
  .next (s.setPc (jumpTarget s.pcPlus4 jfield))

end Sys2Proof.Machine
end

