-- ==== Sys2Proof/Machine/LoadStore.lean ====
section
/-! DEFINITION. The load and store instructions (42_load_store.md). -/

namespace Sys2Proof.Machine

/-- LW: 42_load_store.md R180. The address uses the old `x[rs]`. -/
def execLw (rt rs : RegIdx) (imm16 : BitVec 16) (s : State) (c : Config := Config.standard) :
    Result State :=
  andThen (loadWord (effectiveAddress rs imm16 s c) s c) fun v => .next (s.writeReg rt v c).advance

/-- SW: 42_load_store.md R181. The store data is `x[rt]`, read port B. -/
def execSw (rt rs : RegIdx) (imm16 : BitVec 16) (s : State) (c : Config := Config.standard) :
    Result State :=
  andThen (storeWord (effectiveAddress rs imm16 s c) (s.readReg rt c) s c) fun s' => .next s'.advance

end Sys2Proof.Machine
end

