-- ==== Sys2Proof/Machine/Alu.lean ====
section
/-! DEFINITION. The ALU (40_cycle_datapath.md R137, 41_register_type.md R167 to R170). -/

namespace Sys2Proof.Machine

/-- The ALU operations of 40_cycle_datapath.md R131. -/
inductive AluOp where
  | add
  | sub
  | and
  | or
  | slt
  | undef
deriving DecidableEq, Repr

/-- Set-less-than: exactly 1 or 0; two's-complement signed with SLT_SIGNED, unsigned without
(41_register_type.md R165, R170; log entry 5). The comparison is exact, not the sign of a
difference. -/
def setLessThan (a b : Word) (c : Config := Config.standard) : Word :=
  if c.sltSigned then (if a.toInt < b.toInt then 0x00000001#32 else 0x00000000#32)
  else (if a.toNat < b.toNat then 0x00000001#32 else 0x00000000#32)

/-- `ALU(alu_op, opA, opB)`; `draw` is the free input `u` of 40_cycle_datapath.md R150, used only by
UNDEF. Addition and subtraction wrap modulo 2^32 and subtraction is A - B (R137; log entry 6). -/
def alu (op : AluOp) (a b draw : Word) (c : Config := Config.standard) : Word :=
  match op with
  | .add => a + b
  | .sub => a - b
  | .and => a &&& b
  | .or => a ||| b
  | .slt => setLessThan a b c
  | .undef => draw

end Sys2Proof.Machine
end

