-- ==== Sys2Proof/Machine/RegisterType.lean ====
section
/-! DEFINITION. The register-type instructions (41_register_type.md). Each takes the configuration
as its last argument, the standard one unless another is given. -/

namespace Sys2Proof.Machine

/-- What the family shares (41_register_type.md R160): the value, computed from the pre-cycle
registers, goes to `x[rd]`, and the pc moves on. No data memory access. -/
def registerResult (rd : RegIdx) (value : Word) (s : State) (c : Config := Config.standard) :
    Result State :=
  .next (s.writeReg rd value c).advance

/-- ADD: 41_register_type.md R161. -/
def execAdd (rd rs rt : RegIdx) (s : State) (c : Config := Config.standard) : Result State :=
  registerResult rd (s.readReg rs c + s.readReg rt c) s c

/-- SUB: 41_register_type.md R162; the minuend is `rs`, the subtrahend `rt` (log entry 6). -/
def execSub (rd rs rt : RegIdx) (s : State) (c : Config := Config.standard) : Result State :=
  registerResult rd (s.readReg rs c - s.readReg rt c) s c

/-- AND: 41_register_type.md R163. -/
def execAnd (rd rs rt : RegIdx) (s : State) (c : Config := Config.standard) : Result State :=
  registerResult rd (s.readReg rs c &&& s.readReg rt c) s c

/-- OR: 41_register_type.md R164. -/
def execOr (rd rs rt : RegIdx) (s : State) (c : Config := Config.standard) : Result State :=
  registerResult rd (s.readReg rs c ||| s.readReg rt c) s c

/-- SLT: 41_register_type.md R165. -/
def execSlt (rd rs rt : RegIdx) (s : State) (c : Config := Config.standard) : Result State :=
  registerResult rd (setLessThan (s.readReg rs c) (s.readReg rt c) c) s c

/-- RTYPE_UNDEF: 41_register_type.md R166. The register write happens, with a free value; the next
evaluation of `draw32()` gets a new number. -/
def execRtypeUndef (rd rs rt : RegIdx) (funct : BitVec 6) (s : State)
    (c : Config := Config.standard) : Result State :=
  registerResult rd (Config.draw32 s.drawCount funct (s.readReg rs c) (s.readReg rt c)) s.countDraw c

end Sys2Proof.Machine
end

