-- ==== Sys2Proof/Machine/Unrecognized.lean ====
section
/-! DEFINITION. The fallback of an unrecognized opcode (44_unrecognized.md). -/

namespace Sys2Proof.Machine

/-- UNREC: 44_unrecognized.md R200. `pc <- pc + 4` and nothing else, whatever the word holds. -/
def execUnrec (_word : Word) (s : State) : Result State := .next s.advance

end Sys2Proof.Machine
end

