-- ==== Sys2Proof/Machine/Dispatch.lean ====
section
/-! DEFINITION. The dispatch of an instruction to its meaning, in the standard configuration. -/

namespace Sys2Proof.Machine

-- One cycle's effect of a decoded instruction (40_cycle_datapath.md R150).
def exec (i : Instr) (s : State) : Host.Outcome State Fault Refusal :=
  match i with
  | .lw rt rs imm16 => Sys2Proof.Machine.execLw rt rs imm16 s
  | .sw rt rs imm16 => Sys2Proof.Machine.execSw rt rs imm16 s
  | .add rd rs rt => Sys2Proof.Machine.execAdd rd rs rt s
  | .sub rd rs rt => Sys2Proof.Machine.execSub rd rs rt s
  | .and rd rs rt => Sys2Proof.Machine.execAnd rd rs rt s
  | .or rd rs rt => Sys2Proof.Machine.execOr rd rs rt s
  | .slt rd rs rt => Sys2Proof.Machine.execSlt rd rs rt s
  | .beq rs rt imm16 => Sys2Proof.Machine.execBeq rs rt imm16 s
  | .j jfield => Sys2Proof.Machine.execJ jfield s
  | .rtypeUndef rd rs rt funct => Sys2Proof.Machine.execRtypeUndef rd rs rt funct s
  | .unrec word => Sys2Proof.Machine.execUnrec word s

end Sys2Proof.Machine
end

