-- ==== Sys2Proof/Machine/Step.lean ====
section
/-! DEFINITION. One step of the machine: one clock cycle, in the standard configuration. -/

namespace Sys2Proof.Machine

/-- One invocation of `update()` (00_scope.md R14, 40_cycle_datapath.md R120): fetch the word at the
pc, decode it, run it. -/
def step (s : State) : Host.Outcome State Fault Refusal :=
  andThen (fetch s) fun w => exec (decode w) s

/-- `s` with an instruction word of `nbits` bits, the bits above zero, stored where the next step
fetches (log entry 23). -/
def State.withFetchWord (s : State) (nbits w : Nat) : State :=
  s.setInstruction s.pc (BitVec.ofNat 32 (w % 2 ^ nbits))

end Sys2Proof.Machine
end

