-- ==== Sys2Proof/Machine/Control.lean ====
section
/-! DEFINITION. The control unit: classification, control signals, ALU dispatch
(40_cycle_datapath.md R123 to R131). -/

namespace Sys2Proof.Machine

/-- The instruction classes of 40_cycle_datapath.md R123. -/
inductive OpClass where
  | load
  | store
  | rtype
  | branch
  | jump
  | unrecognized
deriving DecidableEq, Repr

/-- Step 3, classify: exact match on the opcode (40_cycle_datapath.md R123). -/
def classify (opcode : BitVec 6) (c : Config := Config.standard) : OpClass :=
  if opcode = c.opLw then .load
  else if opcode = c.opSw then .store
  else if opcode = c.opRtype then .rtype
  else if opcode = c.opBeq then .branch
  else if opcode = c.opJ then .jump
  else .unrecognized

/-- The eight control signals of 40_cycle_datapath.md R125. -/
structure Control where
  aluSrcImm : Bool
  destIsRd : Bool
  isBranch : Bool
  memReadEn : Bool
  memWriteEn : Bool
  regWriteEn : Bool
  memToReg : Bool
  isJump : Bool
deriving DecidableEq, Repr

/-- Step 4: the signals of each class, the rows of 40_cycle_datapath.md R126 in the order of R125.
DEDUCED by the spec from the consuming steps (log entry 20); the don't-cares are 0 (log entry 16). -/
def controlSignals : OpClass → Control
  | .load => ⟨true, false, false, true, false, true, true, false⟩
  | .store => ⟨true, false, false, false, true, false, false, false⟩
  | .rtype => ⟨false, true, false, false, false, true, false, false⟩
  | .branch => ⟨false, false, true, false, false, false, false, false⟩
  | .jump => ⟨false, false, false, false, false, false, false, true⟩
  | .unrecognized => ⟨false, false, false, false, false, false, false, false⟩

/-- The ALU-operation classes of 40_cycle_datapath.md R130. -/
inductive AluClass where
  | add
  | sub
  | functionCode
  /-- The source names no class for JUMP and NONE: no ALU result is computed (R130, log entry 16). -/
  | notComputed
deriving DecidableEq, Repr

/-- Step 5, first stage (40_cycle_datapath.md R130). -/
def aluClass : OpClass → AluClass
  | .load => .add
  | .store => .add
  | .rtype => .functionCode
  | .branch => .sub
  | .jump => .notComputed
  | .unrecognized => .notComputed

/-- Exact match on the function code (40_cycle_datapath.md R131). -/
def aluOpOfFunct (funct : BitVec 6) (c : Config := Config.standard) : AluOp :=
  if funct = fnAdd then .add
  else if funct = c.fnSub then .sub
  else if funct = c.fnAnd then .and
  else if funct = c.fnOr then .or
  else if funct = c.fnSlt then .slt
  else .undef

/-- Step 5, second stage (40_cycle_datapath.md R131): the operation, or none where the result is not
computed. -/
def aluOpOf (k : OpClass) (funct : BitVec 6) (c : Config := Config.standard) : Option AluOp :=
  match aluClass k with
  | .add => some .add
  | .sub => some .sub
  | .functionCode => some (aluOpOfFunct funct c)
  | .notComputed => none

end Sys2Proof.Machine
end

