-- ==== Sys2Proof/Machine/Datapath.lean ====
section
/-! DEFINITION. The cycle as the datapath of 40_cycle_datapath.md: thirteen steps, the first twelve
computing values from the pre-cycle state, the last committing them together. A second description
of the machine beside decode and exec; that the two agree is an obligation. -/

namespace Sys2Proof.Machine

/-- The staged writes of a cycle (40_cycle_datapath.md R148). They exist only inside the cycle
(10_state.md R37). -/
structure Staged where
  /-- The register write, index and value, if `reg_write_en`. -/
  regWrite : Option (RegIdx × Word)
  /-- The data-memory write, address and value, if `mem_write_en`. -/
  memWrite : Option (Word × Word)
  /-- The next pc. -/
  nextPc : Word
  /-- Whether the ALU evaluated `draw32()`. -/
  drew : Bool
deriving DecidableEq, Repr

/-- Step 7: operand B (40_cycle_datapath.md R136). -/
def aluOperandB (k : Control) (bReg imm32 : Word) : Word := if k.aluSrcImm then imm32 else bReg

/-- Step 8: the ALU result, none where no operation is computed (40_cycle_datapath.md R130, R137). -/
def aluResult (op : Option AluOp) (a b draw : Word) (c : Config := Config.standard) : Option Word :=
  op.map fun o => alu o a b draw c

/-- Step 9, the read half: no read at all when `mem_read_en` is 0 (40_cycle_datapath.md R138,
10_state.md R44). -/
def dataRead (k : Control) (result : Option Word) (s : State) (c : Config := Config.standard) :
    Result (Option Word) :=
  match k.memReadEn, result with
  | true, some a => andThen (loadWord a s c) fun v => .next (some v)
  | _, _ => .next none

/-- Step 10 (40_cycle_datapath.md R140). -/
def writeBackValue (k : Control) (result memRdata : Option Word) : Option Word :=
  if k.memToReg then memRdata else result

/-- Step 11 (40_cycle_datapath.md R141). -/
def writeBackDest (k : Control) (rd rt : RegIdx) : RegIdx := if k.destIsRd then rd else rt

/-- Step 12, the pc multiplexor: jump over branch over sequential (40_cycle_datapath.md R145). -/
def nextPc (k : Control) (zero : Bool) (pcPlus4 : Word) (imm16 : BitVec 16) (jfield : BitVec 26) :
    Word :=
  if k.isJump then jumpTarget pcPlus4 jfield
  else if k.isBranch && zero then branchTarget pcPlus4 imm16
  else pcPlus4

/-- Steps 2 to 12 on a fetched word: everything is computed from the pre-cycle state `s`. -/
def stage (w : Word) (s : State) (c : Config := Config.standard) : Result Staged :=
  let cls := classify (opcodeOf w) c
  let k := controlSignals cls
  let a := s.readReg (rsOf w) c
  let bReg := s.readReg (rtOf w) c
  let opB := aluOperandB k bReg (sext32 (imm16Of w))
  let op := aluOpOf cls (functOf w) c
  let result := aluResult op a opB (Config.draw32 s.drawCount (functOf w) a opB) c
  let zero := match result with
    | some r => zeroFlag r
    | none => false
  andThen (dataRead k result s c) fun memRdata =>
    .next
      { regWrite :=
          if k.regWriteEn then
            (writeBackValue k result memRdata).map fun v => (writeBackDest k (rdOf w) (rtOf w), v)
          else none
        memWrite := if k.memWriteEn then result.map fun addr => (addr, bReg) else none
        nextPc := nextPc k zero s.pcPlus4 (imm16Of w) (jfieldOf w)
        drew := op == some .undef }

/-- Commit the register write. -/
def commitReg (r : Option (RegIdx × Word)) (s : State) (c : Config := Config.standard) : State :=
  match r with
  | some (i, v) => s.writeReg i v c
  | none => s

/-- Commit the data-memory write. -/
def commitMem (m : Option (Word × Word)) (s : State) (c : Config := Config.standard) : Result State :=
  match m with
  | some (a, v) => storeWord a v s c
  | none => .next s

/-- Step 13, commit: the staged values go to three disjoint pieces of state, so the order of the
three does not matter (40_cycle_datapath.md R148). -/
def commit (t : Staged) (s : State) (c : Config := Config.standard) : Result State :=
  andThen (commitMem t.memWrite s c) fun s' =>
    .next ((commitReg t.regWrite (if t.drew then s'.countDraw else s') c).setPc t.nextPc)

/-- The whole cycle (40_cycle_datapath.md R120): fetch, stage, commit. -/
def datapathCycle (s : State) (c : Config := Config.standard) : Result State :=
  andThen (fetch s c) fun w => andThen (stage w s c) fun t => commit t s c

end Sys2Proof.Machine
end

