-- ==== Sys2Proof/Machine/Variant.lean ====
section
/-! DEFINITION. The machine under any choice of the parameters of 00_scope.md R8: the same meanings,
given that configuration. At the standard configuration it is `exec` and `step`. -/

namespace Sys2Proof.Machine

/-- `exec` under configuration `c`. -/
def execWith (c : Config) (i : Instr) (s : State) : Result State :=
  match i with
  | .lw rt rs imm16 => execLw rt rs imm16 s c
  | .sw rt rs imm16 => execSw rt rs imm16 s c
  | .add rd rs rt => execAdd rd rs rt s c
  | .sub rd rs rt => execSub rd rs rt s c
  | .and rd rs rt => execAnd rd rs rt s c
  | .or rd rs rt => execOr rd rs rt s c
  | .slt rd rs rt => execSlt rd rs rt s c
  | .beq rs rt imm16 => execBeq rs rt imm16 s c
  | .j jfield => execJ jfield s
  | .rtypeUndef rd rs rt funct => execRtypeUndef rd rs rt funct s c
  | .unrec word => execUnrec word s

/-- `step` under configuration `c`. -/
def stepWith (c : Config) (s : State) : Result State :=
  andThen (fetch s c) fun w => execWith c (decode w c) s

end Sys2Proof.Machine
end

