-- ==== Sys2Proof/Machine/Ports.lean ====
section
/-! DEFINITION. The host's side: the external ports of the core (10_state.md R40), reset
(70_reset_and_hazards.md R240), the load interface (20_memory.md R80 to R82) and observation
(10_state.md R45). -/

namespace Sys2Proof.Machine

/-- The input ports of 10_state.md R40 at one rising clock edge. -/
structure PortInputs where
  /-- `rst` -/
  rst : Bool
  /-- `run` -/
  run : Bool
  /-- `ld_en` -/
  ldEn : Bool
  /-- `ld_sel`: 1 selects the instruction memory, 0 the data memory -/
  ldSel : Bool
  /-- `ld_addr` -/
  ldAddr : Word
  /-- `ld_data` -/
  ldData : Word
deriving DecidableEq, Repr

/-- The reset edge (70_reset_and_hazards.md R240). With RESET_CLEARS_MEM false the memories keep
their contents (R242). The model's `drawCount` goes on, so a draw after a reset is not one from
before it (log entry 21). -/
def resetEdge (s : State) (c : Config := Config.standard) : State :=
  { pc := c.resetPc
    regs := Vector.replicate 32 c.resetReg
    dmem := if c.resetClearsMem then [] else s.dmem
    imem := if c.resetClearsMem then [] else s.imem
    drawCount := s.drawCount }

/-- `loadInstruction(address, word)` (20_memory.md R80): refused at a misaligned address (R82, log
entry 12). -/
def loadInstruction (address word : Word) (s : State) (c : Config := Config.standard) :
    Result State :=
  if isAligned address then
    andThen (memoryIndex c.imemAddrBits address) fun _ => .next (s.setInstruction address word)
  else .refused (.misalignedLoadAddress address)

/-- `loadDataWord(address, word)` (20_memory.md R80). -/
def loadDataWord (address word : Word) (s : State) (c : Config := Config.standard) : Result State :=
  if isAligned address then
    andThen (memoryIndex c.dmemAddrBits address) fun _ => .next (s.setData address word)
  else .refused (.misalignedLoadAddress address)

/-- One rising clock edge (10_state.md R40): reset has priority over the others; `run` with `ld_en`
is refused; a load edge performs one load and no cycle; a run edge performs one cycle; otherwise the
state is held (also 60_exceptions.md R222). DESIGN CHOICE (log entry 18): a state with a misaligned
pc is refused at the run edge, where it would fetch, and only there; reset, load and hold edges do
not look at the pc. -/
def clockEdge (p : PortInputs) (s : State) (c : Config := Config.standard) : Result State :=
  if p.rst then .next (resetEdge s c)
  else if p.run && p.ldEn then .refused .runAndLoad
  else if p.ldEn then
    if p.ldSel then loadInstruction p.ldAddr p.ldData s c else loadDataWord p.ldAddr p.ldData s c
  else if p.run then stepWith c s
  else .next s

/-- A sequence of edges: the single total order of host steps and cycles (20_memory.md R76, R81). -/
def clockEdges (ps : List PortInputs) (s : State) (c : Config := Config.standard) : Result State :=
  match ps with
  | [] => .next s
  | p :: rest => andThen (clockEdge p s c) fun s' => clockEdges rest s' c

/-- `obs_pc` (10_state.md R40). -/
def obsPc (s : State) : Word := s.pc

/-- `obs_instr` = `IFetch(pc)`, "the instruction at PC". DESIGN CHOICE (log entry 25): observing makes
none of the checks of a fetch, in any configuration. It shows `IMEM[pc[31:2]]` also for a pc that is
misaligned or beyond a narrowed IMEM_ADDR_BITS, where the cycle's fetch refuses or faults. -/
def obsInstr (s : State) : Word := s.imem.read (wordIndex s.pc)

/-- `obs_reg_val` = `x[obs_reg_idx]`, combinational, no side effect. -/
def obsRegVal (idx : RegIdx) (s : State) (c : Config := Config.standard) : Word := s.readReg idx c

/-- What the dump of 10_state.md R45 observes; the data memory is not part of it. -/
structure Dump where
  pc : Word
  instr : Word
  regs : List Word
deriving DecidableEq, Repr

/-- `dump()`: a pure observer (10_state.md R45). -/
def dump (s : State) (c : Config := Config.standard) : Dump :=
  { pc := obsPc s
    instr := obsInstr s
    regs := (List.finRange 32).map fun i => obsRegVal i s c }

end Sys2Proof.Machine
end

