-- ==== Sys2Proof/Safety.lean ====
section
/-! DEFINITION. What counts as a legal state and a settled run, and the effect of an instruction in
the terms claims use. -/

namespace Sys2Proof.Machine

/-- The pc is a multiple of 4 (10_state.md R24). -/
abbrev State.Aligned (s : State) : Prop := s.pc.toNat % 4 = 0

/-- The legal states: an aligned pc, and both memories in canonical form. -/
abbrev State.Inv (s : State) : Prop := s.Aligned ∧ s.dmem.wf ∧ s.imem.wf

/-- A step that changes nothing: form (b) of the end of a run (70_reset_and_hazards.md R262). -/
abbrev State.Quiescent (s : State) : Prop := step s = .next s

/-! The frame of an instruction. -/

/-- Every register but the named one reads as before. -/
abbrev SameRegsBut (d : Option RegIdx) (s t : State) : Prop :=
  ∀ r : RegIdx, d ≠ some r → t.readReg r = s.readReg r

/-- Every data word but the one of the named index reads as before. -/
abbrev SameDataBut (d : Option Nat) (s t : State) : Prop :=
  ∀ k : Nat, d ≠ some k → t.dmem.read k = s.dmem.read k

/-- Every instruction word reads as before. -/
abbrev SameProgram (s t : State) : Prop := ∀ k : Nat, t.imem.read k = s.imem.read k

end Sys2Proof.Machine

namespace Sys2Proof

/-- The register an instruction writes (10_state.md R31). -/
def Instr.writtenReg : Instr → Option RegIdx
  | .lw rt _ _ => some rt
  | .sw _ _ _ => none
  | .add rd _ _ => some rd
  | .sub rd _ _ => some rd
  | .and rd _ _ => some rd
  | .or rd _ _ => some rd
  | .slt rd _ _ => some rd
  | .beq _ _ _ => none
  | .j _ => none
  | .rtypeUndef rd _ _ _ => some rd
  | .unrec _ => none

/-- The index of the data word an instruction stores to in a state (42_load_store.md R181). -/
def Instr.storedWord (i : Instr) (s : Machine.State) : Option Nat :=
  match i with
  | .lw _ _ _ => none
  | .sw _ rs imm16 => some (wordIndex (Machine.effectiveAddress rs imm16 s))
  | .add _ _ _ => none
  | .sub _ _ _ => none
  | .and _ _ _ => none
  | .or _ _ _ => none
  | .slt _ _ _ => none
  | .beq _ _ _ => none
  | .j _ => none
  | .rtypeUndef _ _ _ _ => none
  | .unrec _ => none

/-- The instruction the next cycle of a state runs. -/
def Machine.State.nextInstr (s : Machine.State) : Instr := decode (s.imem.read (wordIndex s.pc))

/-- `n` cycles from `s` answer `t`, and none of them stores to the data word of index `k`. -/
def Machine.RunsWithoutStoringTo (k : Nat) : Nat → Machine.State → Machine.State → Prop
  | 0, s, t => s = t
  | n + 1, s, t =>
    s.nextInstr.storedWord s ≠ some k ∧
      ∃ s', Machine.step s = .next s' ∧ Machine.RunsWithoutStoringTo k n s' t

end Sys2Proof
end

