-- ==== Sys2Proof/Certificates/Slice0/Obligations.lean ====
section
/-! DEFINITION. The statements for the provers. Where a statement rests on a decision the spec marks
as its own, or on this model's choice, its docstring names the log entry (notes/assumptions/<n>.md). -/

open Sys2Proof Sys2Proof.Machine

/-! ## The Bit Field Codec -/

/-- 00_scope.md R10: `w[b:a]` is the bits from a to b, least significant first, of value
`(w >> a) mod 2^(b-a+1)`; and its worked example. -/
def Obligations.ExtractFieldIsTheBitRange : Prop :=
  (∀ (w : Word) (a b : Nat), a ≤ b → b ≤ 31 →
    (extractField w a b).toNat = (w.toNat >>> a) % 2 ^ (b - a + 1) ∧
    ∀ i : Nat, i ≤ b - a → (extractField w a b).getLsbD i = w.getLsbD (a + i)) ∧
  extractField 0x12345678#32 8 12 = 0x16#5

/-- 00_scope.md R12: the low 16 bits are the argument, the high 16 are copies of bit 15, the signed
value is kept; the argument's bits above bit 15 are ignored; zero extension keeps the value; and the
two examples. -/
def Obligations.SignExtensionCopiesBitFifteen : Prop :=
  (∀ h : BitVec 16,
    (∀ i : Nat, i < 16 → (sext32 h).getLsbD i = h.getLsbD i) ∧
    (∀ i : Nat, 16 ≤ i → i < 32 → (sext32 h).getLsbD i = h.getLsbD 15) ∧
    (sext32 h).toInt = h.toInt) ∧
  (∀ w : Word, signExtend16 w = sext32 (BitVec.ofNat 16 w.toNat)) ∧
  (∀ (n : Nat) (v : BitVec n), n ≤ 32 → (v.zeroExtend 32).toNat = v.toNat) ∧
  sext32 0x8000#16 = 0xFFFF8000#32 ∧ sext32 0x0001#16 = 0x00000001#32

/-- 95_test_vectors.md S5: extending twice is extending once. -/
def Obligations.SignExtensionIsIdempotent : Prop :=
  ∀ w : Word, signExtend16 (signExtend16 w) = signExtend16 w

/-! ## Decoding and encoding -/

/-- Decode and encode agree, for every instruction, every operand and every choice of the numbers
that 00_scope.md R8 admits. Bits [10:6] assembled as zero are log entry 24. -/
def Obligations.DecodeOfEncodeIsIdentity : Prop :=
  ∀ (c : Config) (i : Instr), c.NumbersDistinct → i.wellFormed c = true →
    decode (encode i c) c = i

/-- The other direction: encoding what a word decodes to gives the word back, but for the ignored
bits [10:6] of a register-type word, which come back zero (30_encoding.md R104, log entry 24). -/
def Obligations.EncodeOfDecodeClearsOnlyIgnoredBits : Prop :=
  ∀ (c : Config) (w : Word), c.NumbersDistinct →
    encode (decode w c) c = if opcodeOf w = c.opRtype then w &&& 0xFFFFF83F#32 else w

/-- Every one of the 2^32 words decodes to a well-formed instruction (30_encoding.md R102, R105). -/
def Obligations.DecodedInstructionIsWellFormed : Prop :=
  ∀ (c : Config) (w : Word), (decode w c).wellFormed c = true

/-- 30_encoding.md R104: register-type words that differ in bits [10:6] only are the same
instruction. -/
def Obligations.IgnoredBitsSelectNothing : Prop :=
  (∀ (c : Config) (w w' : Word), c.NumbersDistinct → opcodeOf w = c.opRtype →
    w &&& 0xFFFFF83F#32 = w' &&& 0xFFFFF83F#32 → decode w c = decode w' c) ∧
  decode 0x00221820#32 = .add 3 1 2 ∧ decode 0x00221FE0#32 = .add 3 1 2

/-- 30_encoding.md R103, under the standard numbers (PRESUMED, log entries 1 and 2): of the table's
rows exactly the one named like the decoded instruction matches by mask, match and priority. -/
def Obligations.OneTableRowDecidesEveryWord : Prop :=
  ∀ (w : Word) (r : OpcodeRow), r ∈ opcodeTable →
    (r.decides w = true ↔ r.mnemonic = (decode w).mnemonic)

/-- Words of 95_test_vectors.md section 2.1, under the standard numbers (PRESUMED, log entries 1
and 2). -/
def Obligations.ExampleWordsDecode : Prop :=
  decode 0x8C220008#32 = .lw 2 1 8#16 ∧
  decode 0xAC22FFFC#32 = .sw 2 1 0xFFFC#16 ∧
  decode 0x00221820#32 = .add 3 1 2 ∧
  decode 0x0022182A#32 = .slt 3 1 2 ∧
  decode 0x10220002#32 = .beq 1 2 2#16 ∧
  decode 0x08000004#32 = .j 4#26 ∧
  decode 0x00221821#32 = .rtypeUndef 3 1 2 0x21#6 ∧
  decode 0xFC000000#32 = .unrec 0xFC000000#32

/-- The assembler's branch offset (30_encoding.md R112) takes a taken BEQ to its label, and it exists
exactly for the labels that some offset reaches; four times it is the distance modulo 2^32, read
signed. That it exists where the distance wraps is this model's reading (log entry 26); where it does
not wrap see `BranchTargetIsFourTimesTheOffset`. -/
def Obligations.AssembledBranchReachesItsLabel : Prop :=
  (∀ (s : State) (rs rt : RegIdx) (label : Word) (off : BitVec 16),
    assembleBranchOffset s.pc label = some off → s.readReg rs = s.readReg rt →
    ∃ t, exec (.beq rs rt off) s = .next t ∧ t.pc = label) ∧
  (∀ (s : State) (rs rt : RegIdx) (label : Word), s.readReg rs = s.readReg rt →
    ((assembleBranchOffset s.pc label).isSome = true ↔
      ∃ (off : BitVec 16) (t : State), exec (.beq rs rt off) s = .next t ∧ t.pc = label)) ∧
  ∀ (address label : Word) (off : BitVec 16), assembleBranchOffset address label = some off →
    4 * off.toInt = (label - (address + 4#32)).toInt

/-- The assembler's jump field (30_encoding.md R112) takes a J to its target, and it exists exactly
for the aligned targets in the region of the following instruction (43_control_transfer.md R193). -/
def Obligations.AssembledJumpReachesItsTarget : Prop :=
  (∀ (s : State) (target : Word) (jf : BitVec 26),
    assembleJumpField s.pc target = some jf →
    ∃ t, exec (.j jf) s = .next t ∧ t.pc = target) ∧
  ∀ s : State, ∀ target : Word,
    (assembleJumpField s.pc target).isSome = true ↔
      target.toNat % 4 = 0 ∧ target.toNat / 2 ^ 28 = (s.pc + 4#32).toNat / 2 ^ 28

/-! ## Reset and the step -/

/-- 10_state.md R50 to R54. The values are the spec's decisions D8, D9, D10 (log entries 8, 9, 10). -/
def Obligations.ResetStateReadsZeroEverywhere : Prop :=
  State.reset.pc = 0x00000000#32 ∧
  (∀ i : RegIdx, State.reset.readReg i = 0x00000000#32) ∧
  (∀ k : Nat, State.reset.dmem.read k = 0x00000000#32) ∧
  ∀ k : Nat, State.reset.imem.read k = 0x00000000#32

/-- The invariant holds right after reset. -/
def Obligations.ResetMeetsTheInvariant : Prop := State.reset.Inv

/-- 10_state.md R24 and the canonical form of both memories: every step from a legal state gives a
legal state. -/
def Obligations.StepKeepsTheInvariant : Prop :=
  ∀ s t : State, s.Inv → step s = .next t → t.Inv

/-- The same for every clock edge, whatever the host drives, under every choice of the parameters
with an aligned RESET_PC (10_state.md R24, R50). -/
def Obligations.ClockEdgeKeepsTheInvariant : Prop :=
  ∀ (c : Config) (p : PortInputs) (s t : State),
    c.ResetPcAligned → s.Inv → clockEdge p s c = .next t → t.Inv

/-- 40_cycle_datapath.md R151: from every state with an aligned pc, whatever the memories hold, the
step answers a next state with an aligned pc. It is a function of the state (the free value included,
through `Config.draw32`), so it is deterministic but for the draw. -/
def Obligations.StepCompletesFromEveryAlignedState : Prop :=
  ∀ s : State, s.Aligned → ∃ t, step s = .next t ∧ t.Aligned

/-- 20_memory.md R71, 60_exceptions.md R214: a step from a state with a misaligned pc is refused for
that reason, and no other step is refused for any reason (the spec's decision D22, log entry 18). -/
def Obligations.OnlyMisalignedPcIsRefused : Prop :=
  ∀ s : State,
    ((∃ r, step s = .refused r) ↔ ¬ s.Aligned) ∧
    (step s = .refused (.misalignedPc s.pc) ↔ ¬ s.Aligned)

/-- A step runs the instruction that the word at the pc decodes to. -/
def Obligations.StepRunsTheDecodedInstruction : Prop :=
  ∀ (s : State) (i : Instr), s.Aligned → decode (s.imem.read (wordIndex s.pc)) = i →
    step s = exec i s

/-- The thirteen-step datapath of 40_cycle_datapath.md R120 to R149 (control signals, ALU dispatch,
write-back, multiplexor, commit) and the decoder with the meanings of files 41 to 44 are the same
machine, under every choice of the parameters with distinct numbers (R150: "equals rules R121 to R148
taken together"). The don't-care signals are log entry 16. -/
def Obligations.DatapathCycleIsTheDecodedStep : Prop :=
  (∀ (c : Config) (s : State), c.NumbersDistinct → datapathCycle s c = stepWith c s) ∧
  ∀ s : State, datapathCycle s = step s

/-! ## Register-type instructions -/

/-- 41_register_type.md R161, ADD. The match is written over the parameters' names. -/
def Obligations.AddWritesTheSum : Prop :=
  (∀ (c : Config) (w : Word), c.NumbersDistinct →
    w &&& 0xFC00003F#32 = encodeRFormat c.opRtype 0 0 0 fnAdd →
    decode w c = .add (rdOf w) (rsOf w) (rtOf w)) ∧
  fnAdd = 0x20#6 ∧
  (∀ (rd rs rt : RegIdx) (s : State),
    ∃ t, exec (.add rd rs rt) s = .next t ∧
      t.pc = s.pc + 4#32 ∧
      (t.readReg rd).toNat = ((s.readReg rs).toNat + (s.readReg rt).toNat) % 2 ^ 32 ∧
      SameRegsBut (some rd) s t ∧ SameDataBut none s t ∧ SameProgram s t ∧
      t.drawCount = s.drawCount)

/-- 41_register_type.md R162, SUB: minuend rs, subtrahend rt (the spec's decision D6, log entry 6). -/
def Obligations.SubWritesTheDifference : Prop :=
  (∀ (c : Config) (w : Word), c.NumbersDistinct →
    w &&& 0xFC00003F#32 = encodeRFormat c.opRtype 0 0 0 c.fnSub →
    decode w c = .sub (rdOf w) (rsOf w) (rtOf w)) ∧
  (∀ (rd rs rt : RegIdx) (s : State),
    ∃ t, exec (.sub rd rs rt) s = .next t ∧
      t.pc = s.pc + 4#32 ∧
      (t.readReg rd).toNat = (2 ^ 32 + (s.readReg rs).toNat - (s.readReg rt).toNat) % 2 ^ 32 ∧
      SameRegsBut (some rd) s t ∧ SameDataBut none s t ∧ SameProgram s t ∧
      t.drawCount = s.drawCount) ∧
  ∀ (rd rs : RegIdx) (s : State),
    ∃ t, exec (.sub rd rs rs) s = .next t ∧ t.readReg rd = 0x00000000#32

/-- 41_register_type.md R163, AND. -/
def Obligations.AndWritesTheBitwiseAnd : Prop :=
  (∀ (c : Config) (w : Word), c.NumbersDistinct →
    w &&& 0xFC00003F#32 = encodeRFormat c.opRtype 0 0 0 c.fnAnd →
    decode w c = .and (rdOf w) (rsOf w) (rtOf w)) ∧
  (∀ (rd rs rt : RegIdx) (s : State),
    ∃ t, exec (.and rd rs rt) s = .next t ∧
      t.pc = s.pc + 4#32 ∧
      (∀ i : Nat, (t.readReg rd).getLsbD i =
        ((s.readReg rs).getLsbD i && (s.readReg rt).getLsbD i)) ∧
      SameRegsBut (some rd) s t ∧ SameDataBut none s t ∧ SameProgram s t ∧
      t.drawCount = s.drawCount) ∧
  ∀ (rd rs : RegIdx) (s : State),
    ∃ t, exec (.and rd rs rs) s = .next t ∧ t.readReg rd = s.readReg rs

/-- 41_register_type.md R164, OR. -/
def Obligations.OrWritesTheBitwiseOr : Prop :=
  (∀ (c : Config) (w : Word), c.NumbersDistinct →
    w &&& 0xFC00003F#32 = encodeRFormat c.opRtype 0 0 0 c.fnOr →
    decode w c = .or (rdOf w) (rsOf w) (rtOf w)) ∧
  (∀ (rd rs rt : RegIdx) (s : State),
    ∃ t, exec (.or rd rs rt) s = .next t ∧
      t.pc = s.pc + 4#32 ∧
      (∀ i : Nat, (t.readReg rd).getLsbD i =
        ((s.readReg rs).getLsbD i || (s.readReg rt).getLsbD i)) ∧
      SameRegsBut (some rd) s t ∧ SameDataBut none s t ∧ SameProgram s t ∧
      t.drawCount = s.drawCount) ∧
  ∀ (rd rs : RegIdx) (s : State),
    ∃ t, exec (.or rd rs rs) s = .next t ∧ t.readReg rd = s.readReg rs

/-- 41_register_type.md R165, SLT, signed (the spec's decision D5 and general knowledge, log
entry 5). -/
def Obligations.SltWritesTheSignedComparison : Prop :=
  (∀ (c : Config) (w : Word), c.NumbersDistinct →
    w &&& 0xFC00003F#32 = encodeRFormat c.opRtype 0 0 0 c.fnSlt →
    decode w c = .slt (rdOf w) (rsOf w) (rtOf w)) ∧
  (∀ (rd rs rt : RegIdx) (s : State),
    ∃ t, exec (.slt rd rs rt) s = .next t ∧
      t.pc = s.pc + 4#32 ∧
      t.readReg rd =
        (if (s.readReg rs).toInt < (s.readReg rt).toInt then 0x00000001#32 else 0x00000000#32) ∧
      SameRegsBut (some rd) s t ∧ SameDataBut none s t ∧ SameProgram s t ∧
      t.drawCount = s.drawCount)

/-- 41_register_type.md R166, RTYPE_UNDEF: the register write happens with a free value, whatever it
is (the spec's decision D4; `Config.draw32` and `drawCount` are the model's, log entry 4), and
nothing else changes. -/
def Obligations.UnmatchedFunctionCodeWritesAFreeValue : Prop :=
  (∀ (c : Config) (w : Word), c.NumbersDistinct → opcodeOf w = c.opRtype →
    functOf w ∉ c.functionCodes →
    decode w c = .rtypeUndef (rdOf w) (rsOf w) (rtOf w) (functOf w)) ∧
  (∀ (rd rs rt : RegIdx) (funct : BitVec 6) (s : State),
    ∃ t, exec (.rtypeUndef rd rs rt funct) s = .next t ∧
      t.pc = s.pc + 4#32 ∧
      t.readReg rd = Config.draw32 s.drawCount funct (s.readReg rs) (s.readReg rt) ∧
      SameRegsBut (some rd) s t ∧ SameDataBut none s t ∧ SameProgram s t ∧
      t.drawCount = s.drawCount + 1)

/-- 41_register_type.md R170, R165: the comparison yields only 0 or 1, is exact under either reading,
and the readings differ exactly when the top bits differ (the reading is the parameter SLT_SIGNED,
log entry 5). -/
def Obligations.SetLessThanIsExactUnderBothReadings : Prop :=
  (∀ (c : Config) (a b : Word),
    (setLessThan a b c = 0x00000000#32 ∨ setLessThan a b c = 0x00000001#32) ∧
    (c.sltSigned = true → (setLessThan a b c = 0x00000001#32 ↔ a.toInt < b.toInt)) ∧
    (c.sltSigned = false → (setLessThan a b c = 0x00000001#32 ↔ a.toNat < b.toNat))) ∧
  ∀ (c c' : Config) (a b : Word), c.sltSigned = true → c'.sltSigned = false →
    (setLessThan a b c ≠ setLessThan a b c' ↔ a.getLsbD 31 ≠ b.getLsbD 31)

/-- 41_register_type.md R168, subtraction; its zero wire is the comparison of BEQ. -/
def Obligations.ZeroOfTheDifferenceIsEquality : Prop :=
  (∀ (c : Config) (a b draw : Word),
    (alu .sub a b draw c).toNat = (2 ^ 32 + a.toNat - b.toNat) % 2 ^ 32 ∧
    alu .sub a b draw c = a + ~~~b + 1#32 ∧
    (zeroFlag (alu .sub a b draw c) = true ↔ a = b)) ∧
  (∀ (s : State) (rs rt : RegIdx) (imm16 : BitVec 16) (draw : Word),
    ∃ t, exec (.beq rs rt imm16) s = .next t ∧
      t.pc = if zeroFlag (alu .sub (s.readReg rs) (s.readReg rt) draw)
        then branchTarget s.pcPlus4 imm16 else s.pcPlus4) ∧
  (∀ draw : Word,
    alu .sub 0x00000000#32 0x00000001#32 draw = 0xFFFFFFFF#32 ∧
    alu .sub 0x80000000#32 0x00000001#32 draw = 0x7FFFFFFF#32 ∧
    alu .sub 0x00000005#32 0x00000007#32 draw = 0xFFFFFFFE#32)

/-- 41_register_type.md R171: the result of the five operations depends on nothing but the two
operands. -/
def Obligations.RegisterResultDependsOnlyOnTheOperands : Prop :=
  ∀ (rd rs rt : RegIdx) (s s' t t' : State) (op : RegIdx → RegIdx → RegIdx → Instr),
    op ∈ [Instr.add, Instr.sub, Instr.and, Instr.or, Instr.slt] →
    s.readReg rs = s'.readReg rs → s.readReg rt = s'.readReg rt →
    exec (op rd rs rt) s = .next t → exec (op rd rs rt) s' = .next t' →
    t.readReg rd = t'.readReg rd

/-! ## Load and store -/

/-- 42_load_store.md R180, LW. -/
def Obligations.LwLoadsTheAddressedWord : Prop :=
  (∀ (c : Config) (w : Word), c.NumbersDistinct →
    w &&& 0xFC000000#32 = encodeIFormat c.opLw 0 0 0#16 →
    decode w c = .lw (rtOf w) (rsOf w) (imm16Of w)) ∧
  (controlSignals .load).aluSrcImm = true ∧ (controlSignals .load).memReadEn = true ∧
  (controlSignals .load).memToReg = true ∧ (controlSignals .load).regWriteEn = true ∧
  (controlSignals .load).destIsRd = false ∧ aluClass .load = .add ∧
  (∀ (rt rs : RegIdx) (imm16 : BitVec 16) (s : State),
    ∃ t, exec (.lw rt rs imm16) s = .next t ∧
      t.pc = s.pc + 4#32 ∧
      t.readReg rt = s.dmem.read (wordIndex (s.readReg rs + sext32 imm16)) ∧
      SameRegsBut (some rt) s t ∧ SameDataBut none s t ∧ SameProgram s t ∧
      t.drawCount = s.drawCount)

/-- 42_load_store.md R181, SW. The data memory is in canonical form in every state a run reaches
(`StepKeepsTheInvariant`). -/
def Obligations.SwStoresToTheAddressedWord : Prop :=
  (∀ (c : Config) (w : Word), c.NumbersDistinct →
    w &&& 0xFC000000#32 = encodeIFormat c.opSw 0 0 0#16 →
    decode w c = .sw (rtOf w) (rsOf w) (imm16Of w)) ∧
  controlSignals .store = ⟨true, false, false, false, true, false, false, false⟩ ∧
  aluClass .store = .add ∧
  (∀ (rt rs : RegIdx) (imm16 : BitVec 16) (s : State), s.dmem.wf →
    ∃ t, exec (.sw rt rs imm16) s = .next t ∧
      t.pc = s.pc + 4#32 ∧
      t.dmem.read (wordIndex (effectiveAddress rs imm16 s)) = s.readReg rt ∧
      effectiveAddress rs imm16 s = s.readReg rs + sext32 imm16 ∧
      SameRegsBut none s t ∧
      SameDataBut (some (wordIndex (effectiveAddress rs imm16 s))) s t ∧
      SameProgram s t ∧ t.drawCount = s.drawCount)

/-- 20_memory.md R72, with DMEM_MISALIGN = truncate (the spec's decision D11, log entry 11): the
bits [1:0] of a data address select nothing; with DMEM_MISALIGN = refuse the access is refused. That
an address both misaligned and beyond a narrowed memory is refused and not faulted (R64) is this
model's choice (log entry 7). -/
def Obligations.MisalignedDataAddressFollowsThePolicy : Prop :=
  (∀ (rt rs : RegIdx) (imm16 : BitVec 16) (s : State),
    ∃ t, exec (.lw rt rs imm16) s = .next t ∧
      t.readReg rt = s.dmem.read ((effectiveAddress rs imm16 s).toNat / 4)) ∧
  (∀ (rt rs : RegIdx) (imm16 : BitVec 16) (s : State), s.dmem.wf →
    ∃ t, exec (.sw rt rs imm16) s = .next t ∧
      t.dmem.read ((effectiveAddress rs imm16 s).toNat / 4) = s.readReg rt) ∧
  ∀ (c : Config) (rt rs : RegIdx) (imm16 : BitVec 16) (s : State),
    c.dmemMisalign = .refuse → (effectiveAddress rs imm16 s c).toNat % 4 ≠ 0 →
    execWith c (.lw rt rs imm16) s =
      .refused (.misalignedData (effectiveAddress rs imm16 s c)) ∧
    execWith c (.sw rt rs imm16) s =
      .refused (.misalignedData (effectiveAddress rs imm16 s c))

/-- 20_memory.md R64: beyond a narrowed memory LW, SW, the fetch and the host loads fault; with 32
address bits no address is out of range. Misaligned data addresses under DMEM_MISALIGN = refuse are
in `MisalignedDataAddressFollowsThePolicy`. -/
def Obligations.NarrowedMemoryFaultsBeyondItsEnd : Prop :=
  (∀ (c : Config) (rt rs : RegIdx) (imm16 : BitVec 16) (s : State),
    (c.dmemMisalign = .truncate ∨ (effectiveAddress rs imm16 s c).toNat % 4 = 0) →
    2 ^ c.dmemAddrBits ≤ (effectiveAddress rs imm16 s c).toNat →
    execWith c (.lw rt rs imm16) s =
      .fault (.outOfRangeAddress (effectiveAddress rs imm16 s c)) ∧
    execWith c (.sw rt rs imm16) s =
      .fault (.outOfRangeAddress (effectiveAddress rs imm16 s c))) ∧
  (∀ (c : Config) (s : State), s.Aligned → 2 ^ c.imemAddrBits ≤ s.pc.toNat →
    stepWith c s = .fault (.outOfRangeAddress s.pc)) ∧
  (∀ (c : Config) (address word : Word) (s : State), address.toNat % 4 = 0 →
    (2 ^ c.imemAddrBits ≤ address.toNat →
      loadInstruction address word s c = .fault (.outOfRangeAddress address)) ∧
    (2 ^ c.dmemAddrBits ≤ address.toNat →
      loadDataWord address word s c = .fault (.outOfRangeAddress address))) ∧
  ∀ (c : Config) (i : Instr) (p : PortInputs) (s : State) (a : Word), c.FullMemories →
    execWith c i s ≠ .fault (.outOfRangeAddress a) ∧
    stepWith c s ≠ .fault (.outOfRangeAddress a) ∧
    clockEdge p s c ≠ .fault (.outOfRangeAddress a)

/-- 20_memory.md R76, R183: over any number of cycles none of which stores to a data word, that word
reads as before. -/
def Obligations.UnstoredWordPersistsOverRuns : Prop :=
  ∀ (k n : Nat) (s t : State), s.Inv → RunsWithoutStoringTo k n s t →
    t.dmem.read k = s.dmem.read k

/-- 42_load_store.md R183 (20_memory.md R78 is the case of no cycle between): a store, any number of
cycles none of which stores to its word, and a load of that word reproduce the stored value. -/
def Obligations.StoreLoadRoundTripAcrossRuns : Prop :=
  ∀ (n : Nat) (s s1 s2 : State) (rt rs ru rv : RegIdx) (i j : BitVec 16), s.Inv →
    s.nextInstr = .sw rt rs i → step s = .next s1 →
    RunsWithoutStoringTo (wordIndex (effectiveAddress rs i s)) n s1 s2 →
    s2.nextInstr = .lw ru rv j →
    wordIndex (effectiveAddress rv j s2) = wordIndex (effectiveAddress rs i s) →
    ∃ t, step s2 = .next t ∧ t.readReg ru = s.readReg rt

/-! ## Control transfer -/

/-- 43_control_transfer.md R190, BEQ. -/
def Obligations.BeqBranchesOnEquality : Prop :=
  (∀ (c : Config) (w : Word), c.NumbersDistinct →
    w &&& 0xFC000000#32 = encodeIFormat c.opBeq 0 0 0#16 →
    decode w c = .beq (rsOf w) (rtOf w) (imm16Of w)) ∧
  controlSignals .branch = ⟨false, false, true, false, false, false, false, false⟩ ∧
  aluClass .branch = .sub ∧
  (∀ (rs rt : RegIdx) (imm16 : BitVec 16) (s : State),
    ∃ t, exec (.beq rs rt imm16) s = .next t ∧
      t.pc = (if s.readReg rs = s.readReg rt
        then (sext32 imm16 <<< 2) + s.pc + 4#32 else s.pc + 4#32) ∧
      SameRegsBut none s t ∧ SameDataBut none s t ∧ SameProgram s t ∧
      t.drawCount = s.drawCount)

/-- 43_control_transfer.md R191, J. -/
def Obligations.JumpGoesToTheFieldInItsRegion : Prop :=
  (∀ (c : Config) (w : Word), c.NumbersDistinct →
    w &&& 0xFC000000#32 = encodeJFormat c.opJ 0#26 →
    decode w c = .j (jfieldOf w)) ∧
  controlSignals .jump = ⟨false, false, false, false, false, false, false, true⟩ ∧
  (∀ (jfield : BitVec 26) (s : State),
    ∃ t, exec (.j jfield) s = .next t ∧
      t.pc = (((s.pc + 4#32) &&& 0xF0000000#32) ||| (jfield.zeroExtend 32 <<< 2)) ∧
      SameRegsBut none s t ∧ SameDataBut none s t ∧ SameProgram s t ∧
      t.drawCount = s.drawCount)

/-- 30_encoding.md R98: the jump target is bits [31:28] of the following instruction's address, the
26 bits of the field, two zero bits; the shifted field is a 28-bit quantity. -/
def Obligations.JumpTargetIsRegionFieldAndTwoZeros : Prop :=
  (∀ (jfield : BitVec 26) (s : State),
    ∃ t, exec (.j jfield) s = .next t ∧
      t.pc = (((s.pc + 4#32) &&& 0xF0000000#32) ||| (jfield.zeroExtend 32 <<< 2)) ∧
      t.pc = extractField (s.pc + 4#32) 28 31 ++ jfield ++ 0#2) ∧
  ∀ jfield : BitVec 26, (jfield.zeroExtend 32 <<< 2 : Word).toNat < 2 ^ 28

/-- 43_control_transfer.md R192: a taken branch goes to `pc + 4` plus four times the signed offset,
which lies from -131072 to 131068; where the distance from `pc + 4` to a label lies in that range and
is a multiple of 4, the assembled offset is the distance divided by 4; an aligned pc gives an aligned
target. -/
def Obligations.BranchTargetIsFourTimesTheOffset : Prop :=
  (∀ (s : State) (rs rt : RegIdx) (imm16 : BitVec 16), s.readReg rs = s.readReg rt →
    ∃ t, exec (.beq rs rt imm16) s = .next t ∧
      t.pc = BitVec.ofInt 32 ((s.pc.toNat : Int) + 4 + 4 * imm16.toInt) ∧
      (s.Aligned → t.Aligned)) ∧
  (∀ imm16 : BitVec 16, -131072 ≤ 4 * imm16.toInt ∧ 4 * imm16.toInt ≤ 131068) ∧
  ∀ (address label : Word) (distance : Int),
    distance = (label.toNat : Int) - ((address + 4#32).toNat : Int) →
    -131072 ≤ distance → distance ≤ 131068 → distance % 4 = 0 →
    ∃ off, assembleBranchOffset address label = some off ∧ off.toInt = distance / 4

/-! ## Unrecognized opcodes -/

/-- 44_unrecognized.md R200, UNREC: the pc moves on and nothing else changes. -/
def Obligations.UnrecognizedOpcodeOnlyAdvances : Prop :=
  (∀ (c : Config) (w : Word), opcodeOf w ∉ c.opcodes →
    decode w c = .unrec w ∧
    controlSignals (classify (opcodeOf w) c) = ⟨false, false, false, false, false, false, false, false⟩) ∧
  (∀ (w : Word) (s : State),
    ∃ t, exec (.unrec w) s = .next t ∧
      t.pc = s.pc + 4#32 ∧
      SameRegsBut none s t ∧ SameDataBut none s t ∧ SameProgram s t ∧
      t.drawCount = s.drawCount)

/-- 30_encoding.md R108, 20_memory.md R67: a never loaded instruction address runs the all-zero word,
which under the standard numbers (PRESUMED, log entries 1 and 2; conflict C1, log entry 19) writes a
free value to `x[0]` and changes no other register and no data word. -/
def Obligations.UnloadedInstructionWritesRegisterZeroOnly : Prop :=
  ∀ s : State, s.Aligned → (∀ p ∈ s.imem, p.1 ≠ wordIndex s.pc) →
    ∃ t, step s = .next t ∧ t.pc = s.pc + 4#32 ∧
      SameRegsBut (some 0) s t ∧ SameDataBut none s t ∧ SameProgram s t

/-! ## The whole instruction set -/

/-- 10_state.md R22: every instruction completes and sets the pc once, to `pc + 4`, the branch target
or the jump target. -/
def Obligations.NextPcOfEveryInstruction : Prop :=
  ∀ (i : Instr) (s : State), ∃ t, exec i s = .next t ∧
    match i with
    | .beq _ _ imm16 => t.pc = s.pc + 4#32 ∨ t.pc = branchTarget (s.pc + 4#32) imm16
    | .j jfield => t.pc = jumpTarget (s.pc + 4#32) jfield
    | .lw _ _ _ | .sw _ _ _ | .add _ _ _ | .sub _ _ _ | .and _ _ _ | .or _ _ _ | .slt _ _ _
    | .rtypeUndef _ _ _ _ | .unrec _ => t.pc = s.pc + 4#32

/-- 10_state.md R31, 40_cycle_datapath.md R128: what each instruction may write, over all of them; at
most one register or one data word changes, never both, and no instruction word does. -/
def Obligations.WritesOfEveryInstruction : Prop :=
  ∀ (i : Instr) (s t : State), s.dmem.wf → exec i s = .next t →
    SameRegsBut i.writtenReg s t ∧ SameDataBut (i.storedWord s) s t ∧ SameProgram s t ∧
    (i.writtenReg = none ∨ i.storedWord s = none)

/-- 10_state.md R30: where the written register is also read, the read gives the old value and the
write stores the new one. -/
def Obligations.ReadsSeeTheOldValueOfAWrittenRegister : Prop :=
  ∀ (r q : RegIdx) (imm16 : BitVec 16) (s : State),
    (∃ t, exec (.add r r q) s = .next t ∧ t.readReg r = s.readReg r + s.readReg q) ∧
    (∃ t, exec (.add r q r) s = .next t ∧ t.readReg r = s.readReg q + s.readReg r) ∧
    (∃ t, exec (.sub r r q) s = .next t ∧ t.readReg r = s.readReg r - s.readReg q) ∧
    (∃ t, exec (.sub r q r) s = .next t ∧ t.readReg r = s.readReg q - s.readReg r) ∧
    (∃ t, exec (.and r r q) s = .next t ∧ t.readReg r = s.readReg r &&& s.readReg q) ∧
    (∃ t, exec (.and r q r) s = .next t ∧ t.readReg r = s.readReg q &&& s.readReg r) ∧
    (∃ t, exec (.or r r q) s = .next t ∧ t.readReg r = s.readReg r ||| s.readReg q) ∧
    (∃ t, exec (.or r q r) s = .next t ∧ t.readReg r = s.readReg q ||| s.readReg r) ∧
    (∃ t, exec (.slt r r q) s = .next t ∧
      t.readReg r = setLessThan (s.readReg r) (s.readReg q)) ∧
    (∃ t, exec (.slt r q r) s = .next t ∧
      t.readReg r = setLessThan (s.readReg q) (s.readReg r)) ∧
    (∃ t, exec (.lw r r imm16) s = .next t ∧
      t.readReg r = s.dmem.read (wordIndex (s.readReg r + sext32 imm16)))

/-- 40_cycle_datapath.md R127: the control signals depend on the opcode only; so does, in the datapath,
whether a register or a data word is written, which field names the register and which of the three
next pcs can be selected; a register-type word with an unmatched function code has the register write
enabled and writes rd. -/
def Obligations.ControlSignalsDependOnTheOpcodeOnly : Prop :=
  (∀ (c : Config) (w w' : Word), opcodeOf w = opcodeOf w' →
    controlSignals (classify (opcodeOf w) c) = controlSignals (classify (opcodeOf w') c)) ∧
  (∀ (c : Config) (w w' : Word) (s s' : State) (t t' : Staged), opcodeOf w = opcodeOf w' →
    stage w s c = .next t → stage w' s' c = .next t' →
    t.regWrite.isSome = t'.regWrite.isSome ∧ t.memWrite.isSome = t'.memWrite.isSome) ∧
  (∀ (c : Config) (w : Word) (s : State) (t : Staged) (k : Control),
    k = controlSignals (classify (opcodeOf w) c) → stage w s c = .next t →
    t.regWrite.map Prod.fst =
      (if k.regWriteEn then some (if k.destIsRd then rdOf w else rtOf w) else none) ∧
    t.memWrite.isSome = k.memWriteEn ∧
    (k.isJump = true → t.nextPc = jumpTarget s.pcPlus4 (jfieldOf w)) ∧
    (k.isJump = false → k.isBranch = false → t.nextPc = s.pcPlus4)) ∧
  ∀ (c : Config) (s : State) (w : Word), c.NumbersDistinct → opcodeOf w = c.opRtype →
    functOf w ∉ c.functionCodes →
    (controlSignals (classify (opcodeOf w) c)).regWriteEn = true ∧
    ∃ (t : Staged) (v : Word), stage w s c = .next t ∧ t.regWrite = some (rdOf w, v)

/-- 40_cycle_datapath.md R128: the invariants of the control table. -/
def Obligations.ControlTableInvariants : Prop :=
  ∀ k : OpClass,
    ¬((controlSignals k).isBranch = true ∧ (controlSignals k).isJump = true) ∧
    ¬((controlSignals k).memReadEn = true ∧ (controlSignals k).memWriteEn = true) ∧
    ((controlSignals k).memToReg = true → (controlSignals k).memReadEn = true) ∧
    ¬((controlSignals k).regWriteEn = true ∧ (controlSignals k).memWriteEn = true) ∧
    ((controlSignals k).destIsRd = true → (controlSignals k).regWriteEn = true)

/-- 40_cycle_datapath.md R149: with ZERO_REG_HARDWIRED register 0 reads 0 and no instruction writes
it; without, it is written and read like every other. -/
def Obligations.HardwiredRegisterZeroIsNeverWritten : Prop :=
  (∀ (c : Config) (s : State), c.zeroRegHardwired = true → s.readReg 0 c = 0x00000000#32) ∧
  (∀ (c : Config) (i : Instr) (s t : State), c.zeroRegHardwired = true →
    execWith c i s = .next t → t.regs[0] = s.regs[0]) ∧
  (∀ (c : Config) (s : State) (r : RegIdx) (v : Word), c.zeroRegHardwired = false →
    (s.writeReg r v c).readReg r c = v) ∧
  Config.standard.zeroRegHardwired = false

/-- 00_scope.md R13 "new at every evaluation": the number of evaluations of `draw32()` rises by one at
each RTYPE_UNDEF, stays at every other instruction and never falls at any clock edge, a reset among
them, so no two evaluations of a run have the same number. `drawCount` is the model's own field (log
entries 4 and 21). -/
def Obligations.DrawNumbersAreNeverReused : Prop :=
  (∀ (c : Config) (i : Instr) (s t : State), execWith c i s = .next t →
    match i with
    | .rtypeUndef _ _ _ _ => t.drawCount = s.drawCount + 1
    | .lw _ _ _ | .sw _ _ _ | .add _ _ _ | .sub _ _ _ | .and _ _ _ | .or _ _ _ | .slt _ _ _
    | .beq _ _ _ | .j _ | .unrec _ => t.drawCount = s.drawCount) ∧
  ∀ (c : Config) (p : PortInputs) (s t : State), clockEdge p s c = .next t →
    s.drawCount ≤ t.drawCount

/-! ## The host -/

/-- 70_reset_and_hazards.md R240, R242 (the spec's decisions D8, D9, D10, D14; log entries 8, 9, 10,
14 and 21): the reset edge, whatever the other ports say, with the standard values and under every
choice of RESET_PC, RESET_REG and RESET_CLEARS_MEM. That it also leaves a state with a
misaligned pc is the model's choice (log entry 18). -/
def Obligations.ResetEdgeRestoresTheResetValues : Prop :=
  (∀ (p : PortInputs) (s : State), p.rst = true →
    ∃ t, clockEdge p s = .next t ∧
      t.pc = 0x00000000#32 ∧ (∀ i : RegIdx, t.readReg i = 0x00000000#32) ∧
      (∀ k : Nat, t.dmem.read k = 0x00000000#32) ∧ ∀ k : Nat, t.imem.read k = 0x00000000#32) ∧
  ∀ (c : Config) (p : PortInputs) (s : State), p.rst = true →
    ∃ t, clockEdge p s c = .next t ∧ t.pc = c.resetPc ∧
      (∀ i : RegIdx, t.regs[i.val] = c.resetReg ∧
        t.readReg i c =
          if c.zeroRegHardwired = true ∧ i = 0 then 0x00000000#32 else c.resetReg) ∧
      (c.resetClearsMem = true →
        (∀ k : Nat, t.dmem.read k = 0x00000000#32) ∧ ∀ k : Nat, t.imem.read k = 0x00000000#32) ∧
      (c.resetClearsMem = false → t.dmem = s.dmem ∧ t.imem = s.imem)

/-- 20_memory.md R80: each host load replaces one word of one memory and nothing else; each is one
edge with `ld_en = 1`. For a state with a misaligned pc see `OnlyTheRunEdgeLooksAtThePc`. -/
def Obligations.HostLoadReplacesOneWord : Prop :=
  (∀ (a w : Word) (s : State), s.Aligned → a.toNat % 4 = 0 → s.imem.wf →
    ∃ t, loadInstruction a w s = .next t ∧
      clockEdge ⟨false, false, true, true, a, w⟩ s = .next t ∧
      t.imem.read (wordIndex a) = w ∧
      (∀ k, k ≠ wordIndex a → t.imem.read k = s.imem.read k) ∧
      t.pc = s.pc ∧ SameRegsBut none s t ∧ SameDataBut none s t ∧ t.drawCount = s.drawCount) ∧
  ∀ (a w : Word) (s : State), s.Aligned → a.toNat % 4 = 0 → s.dmem.wf →
    ∃ t, loadDataWord a w s = .next t ∧
      clockEdge ⟨false, false, true, false, a, w⟩ s = .next t ∧
      t.dmem.read (wordIndex a) = w ∧
      (∀ k, k ≠ wordIndex a → t.dmem.read k = s.dmem.read k) ∧
      t.pc = s.pc ∧ SameRegsBut none s t ∧ SameProgram s t ∧ t.drawCount = s.drawCount

/-- 10_state.md R40, 20_memory.md R82, 60_exceptions.md R214 (the spec's decisions D12 and D14; log
entries 12 and 14): what an edge without reset does. That a hold edge keeps a state with a misaligned
pc is the model's choice (log entry 18). -/
def Obligations.ClockEdgeFollowsThePorts : Prop :=
  ∀ (p : PortInputs) (s : State), p.rst = false →
    (p.run = true → p.ldEn = true → clockEdge p s = .refused .runAndLoad) ∧
    (p.run = true → p.ldEn = false → clockEdge p s = step s) ∧
    (p.run = false → p.ldEn = false → clockEdge p s = .next s) ∧
    (p.run = false → p.ldEn = true → p.ldAddr.toNat % 4 ≠ 0 →
      clockEdge p s = .refused (.misalignedLoadAddress p.ldAddr))

/-- 20_memory.md R85: no cycle changes the instruction memory; its only writer is the host load (and
reset, R53); an instruction loaded at the pc is the one the next cycle runs. -/
def Obligations.InstructionMemoryIsWrittenOnlyByTheHost : Prop :=
  (∀ (c : Config) (p : PortInputs) (s t : State), p.rst = false →
    (p.ldEn && p.ldSel) = false → clockEdge p s c = .next t → t.imem = s.imem) ∧
  (∀ s t : State, step s = .next t → t.imem = s.imem) ∧
  ∀ (s t : State) (w : Word), s.Inv → loadInstruction s.pc w s = .next t →
    step t = exec (decode w) t

/-- 10_state.md R45: the dump is the pc, the instruction at the pc (the word a cycle would fetch) and
the 32 registers. For the instruction at a misaligned pc see `ObservationMakesNoFetchCheck`. -/
def Obligations.DumpShowsPcInstructionAndRegisters : Prop :=
  ∀ s : State,
    (dump s).pc = s.pc ∧
    (s.Aligned → (dump s).instr = s.imem.read (wordIndex s.pc) ∧ fetch s = .next (dump s).instr) ∧
    (dump s).regs.length = 32 ∧
    ∀ i : RegIdx, (dump s).regs[i.val]? = some (s.readReg i)

/-! ## The end of a run -/

/-- 70_reset_and_hazards.md R262, form (b) (the spec's decision D16, log entry 15): a state is fixed
by the step exactly when the instruction at the pc is a J to itself or a BEQ with equal operands and
offset -1, and then every number of cycles leaves it as it is. -/
def Obligations.QuiescentStatesAreTheSelfLoops : Prop :=
  (∀ s : State, s.Aligned →
    (s.Quiescent ↔
      (∃ jfield, s.nextInstr = .j jfield ∧ jumpTarget s.pcPlus4 jfield = s.pc) ∨
      ∃ rs rt, s.nextInstr = .beq rs rt 0xFFFF#16 ∧ s.readReg rs = s.readReg rt)) ∧
  ∀ (s : State) (n : Nat), s.Quiescent → Sys2Proof.core.run n s = .next s

/-- This model's choice (log entry 25): observing shows the word `IMEM[pc[31:2]]` in every
configuration and every state, also where the fetch refuses a misaligned pc or faults beyond a
narrowed memory. -/
def Obligations.ObservationMakesNoFetchCheck : Prop :=
  (∀ (c : Config) (s : State), (dump s c).instr = s.imem.read (wordIndex s.pc)) ∧
  (∀ (c : Config) (s : State), ¬ s.Aligned → fetch s c = .refused (.misalignedPc s.pc)) ∧
  ∀ (c : Config) (s : State), s.Aligned → 2 ^ c.imemAddrBits ≤ s.pc.toNat →
    fetch s c = .fault (.outOfRangeAddress s.pc)

/-- This model's choice (log entry 18): of the clock edges only the run edge looks at the pc and
refuses a misaligned one. A load or hold edge does from every state what it does from the state with
any other pc, and keeps the pc; a reset edge gives the same state whatever the pc was. -/
def Obligations.OnlyTheRunEdgeLooksAtThePc : Prop :=
  (∀ (c : Config) (p : PortInputs) (s : State) (pc : Word), p.rst = false → p.run = false →
    clockEdge p (s.setPc pc) c = andThen (clockEdge p s c) fun t => .next (t.setPc pc)) ∧
  (∀ (c : Config) (p : PortInputs) (s : State) (pc : Word), p.rst = true →
    clockEdge p (s.setPc pc) c = clockEdge p s c) ∧
  ∀ (c : Config) (p : PortInputs) (s : State), p.rst = false → p.run = true → p.ldEn = false →
    ¬ s.Aligned → clockEdge p s c = .refused (.misalignedPc s.pc)
end

