-- ==== Sys2Proof/Laws/Memory.lean ====
section
/-! SUPPORT. The laws of a memory: read after write, every other word unchanged, the canonical form
kept, and equal reads give equal data. -/

namespace Sys2Proof.Machine

theorem Memory.read_nil (a : Nat) : Memory.read [] a = Memory.unlisted := rfl

theorem Memory.read_cons (k : Nat) (v : Word) (m : Memory) (a : Nat) :
    Memory.read ((k, v) :: m) a = if k = a then v else Memory.read m a := rfl

/-- An index below every listed one reads what an unlisted index reads. -/
theorem Memory.read_below {m : Memory} {a : Nat} (h : ∀ p ∈ m, a < p.1) :
    Memory.read m a = Memory.unlisted := by
  induction m with
  | nil => rfl
  | cons p m ih =>
    obtain ⟨k, v⟩ := p
    have hk : a < k := h (k, v) (by simp)
    rw [Memory.read_cons, if_neg (by omega)]
    exact ih fun p hp => h p (by simp [hp])

theorem Memory.read_cell_append (a b : Nat) (v : Word) (m : Memory)
    (h : Memory.read m a = Memory.unlisted) :
    Memory.read (Memory.cell a v ++ m) b = if b = a then v else Memory.read m b := by
  unfold Memory.cell
  split
  · rename_i hv
    by_cases hb : b = a
    · subst hb; simp [h, hv]
    · simp [hb]
  · rw [List.singleton_append, Memory.read_cons]
    simp only [eq_comm]

/-- The read of a written memory: the written word, or the old one. -/
theorem Memory.read_write {m : Memory} (hm : m.wf) (a b : Nat) (v : Word) :
    (m.write a v).read b = if b = a then v else m.read b := by
  induction m with
  | nil =>
    have := Memory.read_cell_append a b v [] rfl
    rw [List.append_nil] at this
    exact this
  | cons p m ih =>
    obtain ⟨k, w⟩ := p
    obtain ⟨hp, hq⟩ := hm
    rw [List.pairwise_cons] at hp
    unfold Memory.write
    by_cases hak : a < k
    · rw [if_pos hak]
      refine Memory.read_cell_append a b v _ (Memory.read_below ?_)
      intro q hq'
      rcases List.mem_cons.mp hq' with rfl | h
      · exact hak
      · exact Nat.lt_trans hak (hp.1 q h)
    · rw [if_neg hak]
      by_cases hae : a = k
      · subst hae
        rw [if_pos rfl, Memory.read_cell_append a b v m (Memory.read_below hp.1), Memory.read_cons]
        by_cases hb : b = a
        · simp [hb]
        · simp [hb, Ne.symm hb]
      · rw [if_neg hae, Memory.read_cons, Memory.read_cons,
          ih ⟨hp.2, fun q h => hq q (by simp [h])⟩]
        by_cases hk : k = b
        · subst hk; simp [Ne.symm hae]
        · simp [hk]

theorem Memory.read_write_same {m : Memory} (hm : m.wf) (a : Nat) (v : Word) :
    (m.write a v).read a = v := by simp [Memory.read_write hm]

theorem Memory.read_write_other {m : Memory} (hm : m.wf) {a b : Nat} (v : Word) (h : b ≠ a) :
    (m.write a v).read b = m.read b := by simp [Memory.read_write hm, h]

theorem Memory.mem_cell {p : Cell} {a : Nat} {v : Word} (h : p ∈ Memory.cell a v) :
    p = (a, v) ∧ v ≠ Memory.unlisted := by
  unfold Memory.cell at h
  split at h
  · simp at h
  · exact ⟨by simpa using h, ‹_›⟩

/-- Every entry of a written memory is the written word or an old entry. -/
theorem Memory.mem_write {m : Memory} {a : Nat} {v : Word} {p : Cell} (h : p ∈ m.write a v) :
    (p = (a, v) ∧ v ≠ Memory.unlisted) ∨ p ∈ m := by
  induction m with
  | nil => exact .inl (Memory.mem_cell h)
  | cons q m ih =>
    obtain ⟨k, w⟩ := q
    unfold Memory.write at h
    split at h
    · exact (List.mem_append.mp h).imp Memory.mem_cell id
    · split at h
      · exact (List.mem_append.mp h).imp Memory.mem_cell (List.mem_cons_of_mem _)
      · rcases List.mem_cons.mp h with rfl | h
        · exact .inr (by simp)
        · exact (ih h).imp id (List.mem_cons_of_mem _)

theorem Memory.pairwise_cell_append {a : Nat} {v : Word} {m : Memory}
    (hm : m.Pairwise fun p q => p.1 < q.1) (h : ∀ p ∈ m, a < p.1) :
    (Memory.cell a v ++ m).Pairwise fun p q => p.1 < q.1 := by
  unfold Memory.cell
  split
  · exact hm
  · exact List.pairwise_cons.mpr ⟨h, hm⟩

/-- A write keeps the canonical form. -/
theorem Memory.write_wf {m : Memory} (hm : m.wf) {a : Nat} (ha : a < Memory.size) (v : Word) :
    (m.write a v).wf := by
  refine ⟨?_, fun p hp => ?_⟩
  · obtain ⟨hm, -⟩ := hm
    induction m with
    | nil =>
      have := Memory.pairwise_cell_append (a := a) (v := v) List.Pairwise.nil (fun _ h => nomatch h)
      rwa [List.append_nil] at this
    | cons q m ih =>
      obtain ⟨k, w⟩ := q
      rw [List.pairwise_cons] at hm
      unfold Memory.write
      split
      · rename_i hak
        refine Memory.pairwise_cell_append (List.pairwise_cons.mpr hm) fun p hp => ?_
        rcases List.mem_cons.mp hp with rfl | h
        · exact hak
        · exact Nat.lt_trans hak (hm.1 p h)
      · split
        · rename_i _ hae
          subst hae
          exact Memory.pairwise_cell_append hm.2 hm.1
        · refine List.pairwise_cons.mpr ⟨fun p hp => ?_, ih hm.2⟩
          rcases Memory.mem_write hp with ⟨rfl, -⟩ | h
          · show k < a
            omega
          · exact hm.1 p h
  · rcases Memory.mem_write hp with ⟨rfl, hv⟩ | h
    · exact ⟨ha, hv⟩
    · exact hm.2 p h

theorem Memory.nil_wf : Memory.wf [] := ⟨List.Pairwise.nil, fun _ h => nomatch h⟩

/-- Two memories in canonical form that read alike at every index are the same list. -/
theorem Memory.ext_of_read {m n : Memory} (hm : m.wf) (hn : n.wf)
    (h : ∀ a, m.read a = n.read a) : m = n := by
  induction m generalizing n with
  | nil =>
    cases n with
    | nil => rfl
    | cons q n =>
      have := h q.1
      obtain ⟨k, w⟩ := q
      simp only [Memory.read_nil, Memory.read_cons, if_true] at this
      exact absurd this.symm (hn.2 (k, w) (by simp)).2
  | cons p m ih =>
    obtain ⟨k, v⟩ := p
    have hp := List.pairwise_cons.mp hm.1
    have hv := (hm.2 (k, v) (by simp)).2
    cases n with
    | nil =>
      have := h k
      simp only [Memory.read_nil, Memory.read_cons, if_true] at this
      exact absurd this hv
    | cons q n =>
      obtain ⟨l, w⟩ := q
      have hq := List.pairwise_cons.mp hn.1
      have hw := (hn.2 (l, w) (by simp)).2
      have hkl : k = l := by
        rcases Nat.lt_trichotomy k l with hlt | heq | hgt
        · have h1 := h k
          rw [Memory.read_cons, if_pos rfl, Memory.read_below (m := (l, w) :: n)] at h1
          · exact absurd h1 hv
          · intro p hp'
            rcases List.mem_cons.mp hp' with rfl | h'
            · exact hlt
            · exact Nat.lt_trans hlt (hq.1 p h')
        · exact heq
        · have h1 := h l
          rw [Memory.read_cons l, if_pos rfl, Memory.read_below (m := (k, v) :: m)] at h1
          · exact absurd h1.symm hw
          · intro p hp'
            rcases List.mem_cons.mp hp' with rfl | h'
            · exact hgt
            · exact Nat.lt_trans hgt (hp.1 p h')
      subst hkl
      have hvw : v = w := by simpa [Memory.read_cons] using h k
      subst hvw
      congr 1
      refine ih ⟨hp.2, fun p h' => hm.2 p (by simp [h'])⟩ ⟨hq.2, fun p h' => hn.2 p (by simp [h'])⟩ ?_
      intro a
      by_cases hka : k = a
      · subst hka
        rw [Memory.read_below hp.1, Memory.read_below hq.1]
      · simpa [Memory.read_cons, hka] using h a

end Sys2Proof.Machine
end

