-- ==== Sys2Proof/Laws/State.lean ====
section
/-! SUPPORT. One lemma per field of State per update. -/

namespace Sys2Proof.Machine

section
variable (s : State) (i : RegIdx) (v t a w : Word) (c : Config)

@[simp] theorem State.setPc_pc : (s.setPc t).pc = t := rfl
@[simp] theorem State.setPc_regs : (s.setPc t).regs = s.regs := rfl
@[simp] theorem State.setPc_dmem : (s.setPc t).dmem = s.dmem := rfl
@[simp] theorem State.setPc_imem : (s.setPc t).imem = s.imem := rfl
@[simp] theorem State.setPc_drawCount : (s.setPc t).drawCount = s.drawCount := rfl

@[simp] theorem State.advance_pc : s.advance.pc = s.pc + 4#32 := rfl
@[simp] theorem State.advance_regs : s.advance.regs = s.regs := rfl
@[simp] theorem State.advance_dmem : s.advance.dmem = s.dmem := rfl
@[simp] theorem State.advance_imem : s.advance.imem = s.imem := rfl
@[simp] theorem State.advance_drawCount : s.advance.drawCount = s.drawCount := rfl

@[simp] theorem State.countDraw_pc : s.countDraw.pc = s.pc := rfl
@[simp] theorem State.countDraw_regs : s.countDraw.regs = s.regs := rfl
@[simp] theorem State.countDraw_dmem : s.countDraw.dmem = s.dmem := rfl
@[simp] theorem State.countDraw_imem : s.countDraw.imem = s.imem := rfl
@[simp] theorem State.countDraw_drawCount : s.countDraw.drawCount = s.drawCount + 1 := rfl

@[simp] theorem State.setInstruction_pc : (s.setInstruction a w).pc = s.pc := rfl
@[simp] theorem State.setInstruction_regs : (s.setInstruction a w).regs = s.regs := rfl
@[simp] theorem State.setInstruction_dmem : (s.setInstruction a w).dmem = s.dmem := rfl
@[simp] theorem State.setInstruction_imem :
    (s.setInstruction a w).imem = s.imem.write (wordIndex a) w := rfl
@[simp] theorem State.setInstruction_drawCount : (s.setInstruction a w).drawCount = s.drawCount := rfl

@[simp] theorem State.setData_pc : (s.setData a w).pc = s.pc := rfl
@[simp] theorem State.setData_regs : (s.setData a w).regs = s.regs := rfl
@[simp] theorem State.setData_dmem : (s.setData a w).dmem = s.dmem.write (wordIndex a) w := rfl
@[simp] theorem State.setData_imem : (s.setData a w).imem = s.imem := rfl
@[simp] theorem State.setData_drawCount : (s.setData a w).drawCount = s.drawCount := rfl

@[simp] theorem State.writeReg_pc : (s.writeReg i v c).pc = s.pc := by
  unfold State.writeReg; split <;> rfl
@[simp] theorem State.writeReg_dmem : (s.writeReg i v c).dmem = s.dmem := by
  unfold State.writeReg; split <;> rfl
@[simp] theorem State.writeReg_imem : (s.writeReg i v c).imem = s.imem := by
  unfold State.writeReg; split <;> rfl
@[simp] theorem State.writeReg_drawCount : (s.writeReg i v c).drawCount = s.drawCount := by
  unfold State.writeReg; split <;> rfl

@[simp] theorem resetEdge_pc : (resetEdge s c).pc = c.resetPc := rfl
@[simp] theorem resetEdge_regs : (resetEdge s c).regs = Vector.replicate 32 c.resetReg := rfl
@[simp] theorem resetEdge_dmem : (resetEdge s c).dmem = if c.resetClearsMem then [] else s.dmem := rfl
@[simp] theorem resetEdge_imem : (resetEdge s c).imem = if c.resetClearsMem then [] else s.imem := rfl
@[simp] theorem resetEdge_drawCount : (resetEdge s c).drawCount = s.drawCount := rfl

end

/-! Reading a register through an update. Registers are read only through `readReg`. -/

section
variable (s : State) (i j : RegIdx) (v t a w : Word) (c : Config)

@[simp] theorem State.readReg_setPc : (s.setPc t).readReg i c = s.readReg i c := rfl
@[simp] theorem State.readReg_advance : s.advance.readReg i c = s.readReg i c := rfl
@[simp] theorem State.readReg_countDraw : s.countDraw.readReg i c = s.readReg i c := rfl
@[simp] theorem State.readReg_setInstruction :
    (s.setInstruction a w).readReg i c = s.readReg i c := rfl
@[simp] theorem State.readReg_setData : (s.setData a w).readReg i c = s.readReg i c := rfl
@[simp] theorem State.readReg_dmem_update (m : Memory) :
    ({ s with dmem := m } : State).readReg i c = s.readReg i c := rfl

/-- A register reads the written value where the write has an effect, and every other register reads
as before. -/
theorem State.readReg_writeReg :
    (s.writeReg i v c).readReg j c =
      if j = i ∧ ¬(c.zeroRegHardwired = true ∧ i = 0) then v else s.readReg j c := by
  unfold State.writeReg State.readReg
  by_cases h0 : c.zeroRegHardwired = true ∧ i = 0
  · simp [h0]
  · by_cases hji : j = i
    · subst hji; simp [h0]
    · simp [h0, hji, show ¬ i.val = j.val from fun h => hji (Fin.ext h.symm)]

theorem State.readReg_writeReg_other (h : j ≠ i) :
    (s.writeReg i v c).readReg j c = s.readReg j c := by
  simp [State.readReg_writeReg, h]

theorem State.readReg_writeReg_same (h : ¬(c.zeroRegHardwired = true ∧ i = 0)) :
    (s.writeReg i v c).readReg i c = v := by
  simp only [State.readReg_writeReg, h, not_false_eq_true, and_self, if_true]

/-- In the standard configuration register 0 is written like any other. -/
@[simp] theorem State.readReg_writeReg_standard :
    (s.writeReg i v).readReg i = v :=
  State.readReg_writeReg_same s i v _ (by simp [Config.standard])

end

end Sys2Proof.Machine
end

