-- ==== Sys2Proof/Laws/Ops.lean ====
section
/-! SUPPORT. What each shared operation can do, said once. -/

namespace Sys2Proof.Machine

/-! Going on after an operation. -/

section
variable {α β : Type} (f : α → Result β)

@[simp] theorem andThen_next (v : α) : andThen (.next v) f = f v := rfl
@[simp] theorem andThen_fault (r : Fault) : andThen (.fault r : Result α) f = .fault r := rfl
@[simp] theorem andThen_refused (r : Refusal) : andThen (.refused r : Result α) f = .refused r := rfl

/-- A chain answers next only through a next of its first operation. -/
theorem andThen_eq_next {o : Result α} {f : α → Result β} {b : β} :
    andThen o f = .next b ↔ ∃ a, o = .next a ∧ f a = .next b := by
  cases o <;> simp

end

/-! Addresses. -/

theorem extractField_toNat (w : Word) (a b : Nat) :
    (extractField w a b).toNat = (w.toNat >>> a) % 2 ^ (b - a + 1) := by
  unfold extractField
  simp [BitVec.extractLsb, BitVec.extractLsb'_toNat]

theorem isAligned_iff (a : Word) : isAligned a = true ↔ a.toNat % 4 = 0 := by
  unfold isAligned
  rw [beq_iff_eq, ← BitVec.toNat_inj, extractField_toNat]
  simp

theorem State.aligned_iff (s : State) : s.Aligned ↔ isAligned s.pc = true := (isAligned_iff s.pc).symm

theorem wordIndex_eq (a : Word) : wordIndex a = a.toNat / 4 := by
  have := a.isLt
  unfold wordIndex
  rw [extractField_toNat, Nat.shiftRight_eq_div_pow]
  omega

theorem wordIndex_lt (a : Word) : wordIndex a < Memory.size := by
  have := a.isLt
  rw [wordIndex_eq, Memory.size]
  omega

/-- With 32 address bits no address is out of range (20_memory.md R64). -/
@[simp] theorem addressInRange_full (a : Word) : addressInRange 32 a = true := by
  simpa [addressInRange] using a.isLt

theorem memoryIndex_eq_next {bits : Nat} {a : Word} {k : Nat} (h : memoryIndex bits a = .next k) :
    k = wordIndex a := by
  unfold memoryIndex at h
  split at h <;> simp_all

@[simp] theorem memoryIndex_full (a : Word) : memoryIndex 32 a = .next (wordIndex a) := by
  simp [memoryIndex]

theorem dataIndex_eq_next {a : Word} {c : Config} {k : Nat} (h : dataIndex a c = .next k) :
    k = wordIndex a := by
  unfold dataIndex at h
  split at h
  · cases h
  · exact memoryIndex_eq_next h

/-- In the standard configuration every data address selects a word (20_memory.md R62, R72). -/
@[simp] theorem dataIndex_standard (a : Word) : dataIndex a = .next (wordIndex a) := by
  simp [dataIndex, Config.standard]

/-! Loads, stores, fetch. -/

theorem loadWord_eq_next {a v : Word} {s : State} {c : Config} (h : loadWord a s c = .next v) :
    v = s.dmem.read (wordIndex a) := by
  obtain ⟨k, hk, hv⟩ := andThen_eq_next.mp h
  cases hv
  rw [dataIndex_eq_next hk]

@[simp] theorem loadWord_standard (a : Word) (s : State) :
    loadWord a s = .next (s.dmem.read (wordIndex a)) := by
  simp [loadWord]

theorem storeWord_eq_next {a v : Word} {s s' : State} {c : Config}
    (h : storeWord a v s c = .next s') :
    s' = { s with dmem := s.dmem.write (wordIndex a) v } := by
  obtain ⟨k, hk, hv⟩ := andThen_eq_next.mp h
  cases hv
  rw [dataIndex_eq_next hk]

@[simp] theorem storeWord_standard (a v : Word) (s : State) :
    storeWord a v s = .next { s with dmem := s.dmem.write (wordIndex a) v } := by
  simp [storeWord]

theorem fetch_eq_next {s : State} {c : Config} {w : Word} (h : fetch s c = .next w) :
    isAligned s.pc = true ∧ w = s.imem.read (wordIndex s.pc) := by
  unfold fetch at h
  split at h
  · obtain ⟨k, hk, hv⟩ := andThen_eq_next.mp h
    cases hv
    exact ⟨‹_›, by rw [memoryIndex_eq_next hk]⟩
  · cases h

/-- In the standard configuration an aligned pc always fetches (20_memory.md R66). -/
theorem fetch_standard {s : State} (h : isAligned s.pc = true) :
    fetch s = .next (s.imem.read (wordIndex s.pc)) := by
  simp [fetch, h, Config.standard]

theorem fetch_misaligned {s : State} {c : Config} (h : isAligned s.pc = false) :
    fetch s c = .refused (.misalignedPc s.pc) := by
  simp [fetch, h]

/-! Registers. -/

/-- In the standard configuration register 0 is read like any other (10_state.md R27). -/
theorem readReg_standard (s : State) (i : RegIdx) : s.readReg i = s.regs[i.val] := by
  simp [State.readReg, Config.standard]

/-! The results of the meanings in the standard configuration, as states. -/

theorem registerResult_eq (rd : RegIdx) (v : Word) (s : State) (c : Config) :
    registerResult rd v s c = .next (s.writeReg rd v c).advance := rfl

theorem execLw_standard (rt rs : RegIdx) (imm16 : BitVec 16) (s : State) :
    execLw rt rs imm16 s =
      .next (s.writeReg rt (s.dmem.read (wordIndex (effectiveAddress rs imm16 s)))).advance := by
  simp [execLw]

theorem execSw_standard (rt rs : RegIdx) (imm16 : BitVec 16) (s : State) :
    execSw rt rs imm16 s =
      .next { s with
        dmem := s.dmem.write (wordIndex (effectiveAddress rs imm16 s)) (s.readReg rt)
        pc := s.pc + 4#32 } := by
  simp [execSw, State.advance, State.setPc, State.pcPlus4]

/-! Under any configuration: what a load and a store do if they answer next. -/

theorem execLw_eq_next {rt rs : RegIdx} {imm16 : BitVec 16} {s t : State} {c : Config}
    (h : execLw rt rs imm16 s c = .next t) :
    t = (s.writeReg rt (s.dmem.read (wordIndex (effectiveAddress rs imm16 s c))) c).advance := by
  obtain ⟨v, hv, ht⟩ := andThen_eq_next.mp h
  cases ht
  rw [loadWord_eq_next hv]

theorem execSw_eq_next {rt rs : RegIdx} {imm16 : BitVec 16} {s t : State} {c : Config}
    (h : execSw rt rs imm16 s c = .next t) :
    t = { s with
      dmem := s.dmem.write (wordIndex (effectiveAddress rs imm16 s c)) (s.readReg rt c)
      pc := s.pc + 4#32 } := by
  obtain ⟨s', hs, ht⟩ := andThen_eq_next.mp h
  cases ht
  rw [storeWord_eq_next hs]
  rfl

/-! The standard machine among the variants. -/

theorem execWith_standard (i : Instr) (s : State) : execWith Config.standard i s = exec i s := by
  cases i <;> rfl

theorem stepWith_standard (s : State) : stepWith Config.standard s = step s := by
  simp only [stepWith, step, execWith_standard]

/-- A step that answers next fetched an aligned word and ran the instruction it decodes to. -/
theorem stepWith_eq_next {c : Config} {s t : State} (h : stepWith c s = .next t) :
    isAligned s.pc = true ∧
      execWith c (decode (s.imem.read (wordIndex s.pc)) c) s = .next t := by
  obtain ⟨w, hw, ht⟩ := andThen_eq_next.mp h
  obtain ⟨ha, rfl⟩ := fetch_eq_next hw
  exact ⟨ha, ht⟩

/-! Arithmetic of the targets. -/

theorem zeroFlag_iff (r : Word) : zeroFlag r = true ↔ r = 0#32 := by simp [zeroFlag]

end Sys2Proof.Machine
end

