-- ==== Sys2Proof/Laws/Decode.lean ====
section
/-! SUPPORT. The fields of an assembled word: each format as a sum of its fields, and what each field
accessor reads back from it. -/

namespace Sys2Proof

theorem append_toNat {m n : Nat} (x : BitVec m) (y : BitVec n) :
    (x ++ y).toNat = x.toNat * 2 ^ n + y.toNat := by
  rw [BitVec.toNat_append, ← Nat.shiftLeft_add_eq_or_of_lt y.isLt, Nat.shiftLeft_eq]

theorem fieldOfReg_toNat (r : RegIdx) : (fieldOfReg r).toNat = r.val := by
  simp [fieldOfReg]

theorem regField_val (f : BitVec 5) : (regField f).val = f.toNat := rfl

theorem encodeRFormat_toNat (op : BitVec 6) (rs rt rd : RegIdx) (f : BitVec 6) :
    (encodeRFormat op rs rt rd f).toNat =
      op.toNat * 2 ^ 26 + rs.val * 2 ^ 21 + rt.val * 2 ^ 16 + rd.val * 2 ^ 11 + f.toNat := by
  unfold encodeRFormat
  simp only [append_toNat, fieldOfReg_toNat, BitVec.toNat_ofNat]
  omega

theorem encodeIFormat_toNat (op : BitVec 6) (rs rt : RegIdx) (imm : BitVec 16) :
    (encodeIFormat op rs rt imm).toNat =
      op.toNat * 2 ^ 26 + rs.val * 2 ^ 21 + rt.val * 2 ^ 16 + imm.toNat := by
  unfold encodeIFormat
  simp only [append_toNat, fieldOfReg_toNat]
  omega

theorem encodeJFormat_toNat (op : BitVec 6) (jf : BitVec 26) :
    (encodeJFormat op jf).toNat = op.toNat * 2 ^ 26 + jf.toNat := by
  unfold encodeJFormat
  simp only [append_toNat]

/-! The field accessors as arithmetic on the word. -/

open Machine (extractField_toNat)

theorem opcodeOf_toNat (w : Word) : (opcodeOf w).toNat = w.toNat / 2 ^ 26 % 2 ^ 6 := by
  rw [opcodeOf, extractField_toNat, Nat.shiftRight_eq_div_pow]

theorem functOf_toNat (w : Word) : (functOf w).toNat = w.toNat % 2 ^ 6 := by
  rw [functOf, extractField_toNat, Nat.shiftRight_zero]

theorem imm16Of_toNat (w : Word) : (imm16Of w).toNat = w.toNat % 2 ^ 16 := by
  rw [imm16Of, extractField_toNat, Nat.shiftRight_zero]

theorem jfieldOf_toNat (w : Word) : (jfieldOf w).toNat = w.toNat % 2 ^ 26 := by
  rw [jfieldOf, extractField_toNat, Nat.shiftRight_zero]

theorem rsOf_val (w : Word) : (rsOf w).val = w.toNat / 2 ^ 21 % 2 ^ 5 := by
  rw [rsOf, regField_val, extractField_toNat, Nat.shiftRight_eq_div_pow]

theorem rtOf_val (w : Word) : (rtOf w).val = w.toNat / 2 ^ 16 % 2 ^ 5 := by
  rw [rtOf, regField_val, extractField_toNat, Nat.shiftRight_eq_div_pow]

theorem rdOf_val (w : Word) : (rdOf w).val = w.toNat / 2 ^ 11 % 2 ^ 5 := by
  rw [rdOf, regField_val, extractField_toNat, Nat.shiftRight_eq_div_pow]

/-! Reading the fields of each format back. -/

section
variable (op : BitVec 6) (rs rt rd : RegIdx) (f : BitVec 6) (imm : BitVec 16) (jf : BitVec 26)

@[simp] theorem opcodeOf_encodeRFormat : opcodeOf (encodeRFormat op rs rt rd f) = op := by
  rw [← BitVec.toNat_inj, opcodeOf_toNat, encodeRFormat_toNat]; omega

@[simp] theorem rsOf_encodeRFormat : rsOf (encodeRFormat op rs rt rd f) = rs := by
  rw [Fin.ext_iff, rsOf_val, encodeRFormat_toNat]; omega

@[simp] theorem rtOf_encodeRFormat : rtOf (encodeRFormat op rs rt rd f) = rt := by
  rw [Fin.ext_iff, rtOf_val, encodeRFormat_toNat]; omega

@[simp] theorem rdOf_encodeRFormat : rdOf (encodeRFormat op rs rt rd f) = rd := by
  rw [Fin.ext_iff, rdOf_val, encodeRFormat_toNat]; omega

@[simp] theorem functOf_encodeRFormat : functOf (encodeRFormat op rs rt rd f) = f := by
  rw [← BitVec.toNat_inj, functOf_toNat, encodeRFormat_toNat]; omega

@[simp] theorem opcodeOf_encodeIFormat : opcodeOf (encodeIFormat op rs rt imm) = op := by
  rw [← BitVec.toNat_inj, opcodeOf_toNat, encodeIFormat_toNat]; omega

@[simp] theorem rsOf_encodeIFormat : rsOf (encodeIFormat op rs rt imm) = rs := by
  rw [Fin.ext_iff, rsOf_val, encodeIFormat_toNat]; omega

@[simp] theorem rtOf_encodeIFormat : rtOf (encodeIFormat op rs rt imm) = rt := by
  rw [Fin.ext_iff, rtOf_val, encodeIFormat_toNat]; omega

@[simp] theorem imm16Of_encodeIFormat : imm16Of (encodeIFormat op rs rt imm) = imm := by
  rw [← BitVec.toNat_inj, imm16Of_toNat, encodeIFormat_toNat]; omega

@[simp] theorem opcodeOf_encodeJFormat : opcodeOf (encodeJFormat op jf) = op := by
  rw [← BitVec.toNat_inj, opcodeOf_toNat, encodeJFormat_toNat]; omega

@[simp] theorem jfieldOf_encodeJFormat : jfieldOf (encodeJFormat op jf) = jf := by
  rw [← BitVec.toNat_inj, jfieldOf_toNat, encodeJFormat_toNat]; omega

end

/-! Masks that keep a field whole do not change it. -/

theorem opcodeOf_and (w m : Word) (h : opcodeOf m = 0x3F#6) : opcodeOf (w &&& m) = opcodeOf w := by
  have : opcodeOf (w &&& m) = opcodeOf w &&& opcodeOf m := by
    unfold opcodeOf extractField
    ext i hi
    simp [BitVec.extractLsb]
  rw [this, h]
  exact BitVec.and_allOnes

theorem functOf_and (w m : Word) (h : functOf m = 0x3F#6) : functOf (w &&& m) = functOf w := by
  have : functOf (w &&& m) = functOf w &&& functOf m := by
    unfold functOf extractField
    ext i hi
    simp [BitVec.extractLsb]
  rw [this, h]
  exact BitVec.and_allOnes

/-! Pairwise distinct numbers, pair by pair. -/

theorem Config.NumbersDistinct.opcodes_ne {c : Config} (h : c.NumbersDistinct) :
    c.opLw ≠ c.opSw ∧ c.opLw ≠ c.opRtype ∧ c.opLw ≠ c.opBeq ∧ c.opLw ≠ c.opJ ∧
    c.opSw ≠ c.opRtype ∧ c.opSw ≠ c.opBeq ∧ c.opSw ≠ c.opJ ∧
    c.opRtype ≠ c.opBeq ∧ c.opRtype ≠ c.opJ ∧ c.opBeq ≠ c.opJ := by
  have h1 := h.1
  simp only [Config.opcodes, List.nodup_cons, List.mem_cons, List.not_mem_nil, or_false, not_or] at h1
  tauto

theorem Config.NumbersDistinct.functionCodes_ne {c : Config} (h : c.NumbersDistinct) :
    fnAdd ≠ c.fnSub ∧ fnAdd ≠ c.fnAnd ∧ fnAdd ≠ c.fnOr ∧ fnAdd ≠ c.fnSlt ∧
    c.fnSub ≠ c.fnAnd ∧ c.fnSub ≠ c.fnOr ∧ c.fnSub ≠ c.fnSlt ∧
    c.fnAnd ≠ c.fnOr ∧ c.fnAnd ≠ c.fnSlt ∧ c.fnOr ≠ c.fnSlt := by
  have h2 := h.2
  simp only [Config.functionCodes, List.nodup_cons, List.mem_cons, List.not_mem_nil, or_false,
    not_or] at h2
  tauto

theorem standard_numbersDistinct : Config.standard.NumbersDistinct := by decide

end Sys2Proof
end

