-- ==== Sys2Proof/Laws/PerInstr.lean ====
section
/-! SUPPORT. Lemmas about every instruction as syntax, one per constructor. -/

namespace Sys2Proof

/-- The opcodes a class's instructions may carry (30_encoding.md R100). -/
def Instr.opcodeFits (i : Instr) (c : Config) (opcode : BitVec 6) : Prop :=
  match i with
  | .lw _ _ _ => opcode = c.opLw
  | .sw _ _ _ => opcode = c.opSw
  | .add _ _ _ => opcode = c.opRtype
  | .sub _ _ _ => opcode = c.opRtype
  | .and _ _ _ => opcode = c.opRtype
  | .or _ _ _ => opcode = c.opRtype
  | .slt _ _ _ => opcode = c.opRtype
  | .beq _ _ _ => opcode = c.opBeq
  | .j _ => opcode = c.opJ
  | .rtypeUndef _ _ _ _ => opcode = c.opRtype
  | .unrec _ => opcode ∉ c.opcodes

namespace Laws.EncodedOpcode

/-- The word of a well-formed instruction carries an opcode of the instruction's class. -/
def Statement (i : Instr) : Prop :=
  ∀ c : Config, i.wellFormed c = true → i.opcodeFits c (opcodeOf (encode i c))

theorem lw (rt rs : RegIdx) (imm16 : BitVec 16) : Statement (.lw rt rs imm16) :=
  fun _ _ => opcodeOf_encodeIFormat ..
theorem sw (rt rs : RegIdx) (imm16 : BitVec 16) : Statement (.sw rt rs imm16) :=
  fun _ _ => opcodeOf_encodeIFormat ..
theorem add (rd rs rt : RegIdx) : Statement (.add rd rs rt) :=
  fun _ _ => opcodeOf_encodeRFormat ..
theorem sub (rd rs rt : RegIdx) : Statement (.sub rd rs rt) :=
  fun _ _ => opcodeOf_encodeRFormat ..
theorem and (rd rs rt : RegIdx) : Statement (.and rd rs rt) :=
  fun _ _ => opcodeOf_encodeRFormat ..
theorem or (rd rs rt : RegIdx) : Statement (.or rd rs rt) :=
  fun _ _ => opcodeOf_encodeRFormat ..
theorem slt (rd rs rt : RegIdx) : Statement (.slt rd rs rt) :=
  fun _ _ => opcodeOf_encodeRFormat ..
theorem beq (rs rt : RegIdx) (imm16 : BitVec 16) : Statement (.beq rs rt imm16) :=
  fun _ _ => opcodeOf_encodeIFormat ..
theorem j (jfield : BitVec 26) : Statement (.j jfield) :=
  fun _ _ => opcodeOf_encodeJFormat ..
theorem rtypeUndef (rd rs rt : RegIdx) (funct : BitVec 6) : Statement (.rtypeUndef rd rs rt funct) :=
  fun _ _ => opcodeOf_encodeRFormat ..
theorem unrec (word : Word) : Statement (.unrec word) :=
  fun c h => by simpa [Instr.wellFormed, Instr.opcodeFits, encode] using h

end Laws.EncodedOpcode

end Sys2Proof
end

