-- ==== Sys2Proof/Tests/Slice0.lean ====
section
/-! SUPPORT. Tests. Expected values come from the spec: 95_test_vectors.md (the ids V-... and S... are
its own) or the rule named; and, for each statement with hypotheses, a witness that meets them. -/

namespace Sys2Proof.Tests

open Sys2Proof.Machine

/-- A state with the given pc, the given registers (the others 0) and the given memories. -/
def st (pc : Word) (regs : List (RegIdx × Word)) (dmem imem : Memory) : State :=
  regs.foldl (fun s r => s.writeReg r.1 r.2) { State.reset with pc := pc, dmem := dmem, imem := imem }

/-- What `f` reads of the next state, if there is one. -/
def after {σ α : Type} (o : Result σ) (f : σ → α) : Option α :=
  match o with
  | .next t => some (f t)
  | .fault _ => none
  | .refused _ => none

/-! ## WellFormed refuses ill-formed terms -/

theorem test_wellFormed_refuses_matched_funct : (Instr.rtypeUndef 1 2 3 0x20#6).wellFormed = false := by
  decide
theorem test_wellFormed_refuses_recognized_opcode : (Instr.unrec 0x8C220008#32).wellFormed = false := by
  decide
theorem test_wellFormed_admits_fallbacks :
    (Instr.rtypeUndef 1 2 3 0x21#6).wellFormed = true ∧ (Instr.unrec 0xFC000000#32).wellFormed = true := by
  decide

/-! ## Decoding: every constructor's word written out from 30_encoding.md R92 to R94, and the rows of
95_test_vectors.md 2.1 -/

theorem test_decode_lw_bits :
    decode 0b100011_00001_00010_0000000000001000#32 = .lw 2 1 8#16 := by decide
theorem test_decode_sw_bits :
    decode 0b101011_00001_00010_1111111111111100#32 = .sw 2 1 0xFFFC#16 := by decide
theorem test_decode_add_bits :
    decode 0b000000_00001_00010_00011_00000_100000#32 = .add 3 1 2 := by decide
theorem test_decode_sub_bits :
    decode 0b000000_00001_00010_00011_00000_100010#32 = .sub 3 1 2 := by decide
theorem test_decode_and_bits :
    decode 0b000000_00001_00010_00011_00000_100100#32 = .and 3 1 2 := by decide
theorem test_decode_or_bits :
    decode 0b000000_00001_00010_00011_00000_100101#32 = .or 3 1 2 := by decide
theorem test_decode_slt_bits :
    decode 0b000000_00001_00010_00011_00000_101010#32 = .slt 3 1 2 := by decide
theorem test_decode_beq_bits :
    decode 0b000100_10001_10100_0101011001111000#32 = .beq 17 20 0x5678#16 := by decide
theorem test_decode_j_bits :
    decode 0b000010_00000000000000000000000100#32 = .j 4#26 := by decide
theorem test_decode_rtypeUndef_bits :
    decode 0b000000_00001_00010_00011_00000_100001#32 = .rtypeUndef 3 1 2 0x21#6 := by decide
theorem test_decode_unrec_bits :
    decode 0b000001_00000000000000000000000000#32 = .unrec 0x04000000#32 := by decide
theorem test_decode_ignored_bits : decode 0x00221FE0#32 = .add 3 1 2 := by decide
theorem test_decode_zero_word : decode 0x00000000#32 = .rtypeUndef 0 0 0 0#6 := by decide
theorem test_decode_all_ones : decode 0xFFFFFFFF#32 = .unrec 0xFFFFFFFF#32 := by decide
theorem test_encode_rows :
    encode (.sub 4 1 2) = 0x00222022#32 ∧ encode (.sw 2 1 0xFFFC#16) = 0xAC22FFFC#32 ∧
    encode (.beq 1 2 0xFFFF#16) = 0x1022FFFF#32 ∧ encode (.j 8#26) = 0x08000008#32 := by decide
theorem test_decodeTableWord :
    decodeTableWord 32 0x8C000000 = some (.lw 0 0 0#16) ∧ decodeTableWord 33 0 = none := by decide

/-! ## The codec (S1, S3, S4) -/

theorem test_extractField_S1 : extractField 0x12345678#32 8 12 = 0x16#5 := by decide
theorem test_signExtend16_S3_S4 :
    signExtend16 0x8000#32 = 0xFFFF8000#32 ∧ signExtend16 0xABCD0001#32 = 0x00000001#32 := by decide

/-! ## Register-type instructions (95_test_vectors.md 2.3, 2.4) -/

theorem test_add_V_R1 :
    after (exec (.add 3 1 2) (st 0#32 [(1, 5#32), (2, 7#32)] [] []))
      (fun t => (t.pc, t.readReg 3)) = some (4#32, 0xC#32) := by decide
theorem test_add_writes_x0_V_R7 :
    after (exec (.add 0 1 1) (st 0#32 [(1, 0x10#32)] [] [])) (fun t => t.readReg 0) =
      some 0x20#32 := by decide
theorem test_sub_V_R2 :
    after (exec (.sub 4 1 2) (st 8#32 [(1, 5#32), (2, 7#32)] [] []))
      (fun t => (t.pc, t.readReg 4)) = some (0xC#32, 0xFFFFFFFE#32) := by decide
theorem test_sub_clears_V_R8 :
    after (exec (.sub 3 3 3) (st 0#32 [(3, 0x1234#32)] [] [])) (fun t => t.readReg 3) =
      some 0#32 := by decide
theorem test_and_row :
    after (exec (.and 6 1 2) (st 0#32 [(1, 0xF0F0F0F0#32), (2, 0x0FF00FF0#32)] [] []))
      (fun t => t.readReg 6) = some 0x00F000F0#32 := by decide
theorem test_or_row :
    after (exec (.or 7 1 2) (st 0#32 [(1, 0xF0F0F0F0#32), (2, 0x0FF00FF0#32)] [] []))
      (fun t => t.readReg 7) = some 0xFFF0FFF0#32 := by decide
theorem test_slt_V_R5 :
    after (exec (.slt 5 1 2) (st 0#32 [(1, 0xFFFFFFFF#32), (2, 1#32)] [] []))
      (fun t => t.readReg 5) = some 1#32 := by decide
theorem test_slt_equal_operands :
    after (exec (.slt 5 1 1) (st 0#32 [(1, 0x80000000#32), (5, 9#32)] [] []))
      (fun t => t.readReg 5) = some 0#32 := by decide
theorem test_rtypeUndef_V_R12 :
    after (exec (.rtypeUndef 3 1 2 0x21#6) (st 0#32 [(1, 5#32), (2, 7#32), (3, 9#32)] [] []))
      (fun t => (t.pc, t.readReg 1, t.readReg 2, t.drawCount)) = some (4#32, 5#32, 7#32, 1) := by
  decide

/-! ## Loads and stores (95_test_vectors.md 2.5); a data word's key is its address divided by 4 -/

theorem test_lw_wraps_V_M6 :
    after (exec (.lw 2 1 8#16) (st 0#32 [(1, 0xFFFFFFFC#32)] [(1, 0x77#32)] []))
      (fun t => (t.pc, t.readReg 2)) = some (4#32, 0x77#32) := by decide
theorem test_lw_misaligned_V_M9 :
    after (exec (.lw 2 1 0#16) (st 0#32 [(1, 0x102#32)] [(0x40, 0x99#32)] []))
      (fun t => t.readReg 2) = some 0x99#32 := by decide
theorem test_sw_negative_offset_V_M2 :
    after (exec (.sw 2 1 0xFFFC#16) (st 0#32 [(1, 0x104#32), (2, 0xCAFEF00D#32)] [] []))
      (fun t => (t.pc, t.dmem)) = some (4#32, [(0x40, 0xCAFEF00D#32)]) := by decide
theorem test_sw_zero_unlists_the_word :
    after (exec (.sw 0 1 0#16) (st 0#32 [(1, 0x100#32)] [(0x40, 0x22#32), (0x41, 1#32)] []))
      (fun t => t.dmem) = some [(0x41, 1#32)] := by decide

/-! ## Control transfer (95_test_vectors.md 2.6, 2.7) -/

theorem test_beq_largest_backward_V_B8 :
    after (exec (.beq 1 2 0x8000#16) (st 0#32 [(1, 9#32), (2, 9#32)] [] [])) State.pc =
      some 0xFFFE0004#32 := by decide
theorem test_beq_not_taken_V_B11 :
    after (exec (.beq 1 2 2#16) (st 0x100#32 [(1, 1#32), (2, 0x80000001#32)] [] [])) State.pc =
      some 0x104#32 := by decide
theorem test_j_region_of_next_V_J6 :
    after (exec (.j 0x10#26) (st 0x0FFFFFFC#32 [] [] [])) State.pc = some 0x10000040#32 := by decide
theorem test_j_wraps_V_J7 :
    after (exec (.j 0x10#26) (st 0xFFFFFFFC#32 [] [] [])) State.pc = some 0x00000040#32 := by decide

/-! ## UNREC (95_test_vectors.md 2.8) -/

theorem test_unrec_wraps_V_U6 :
    after (exec (.unrec nopWord) (st 0xFFFFFFFC#32 [(1, 5#32)] [] []))
      (fun t => (t.pc, t.readReg 1)) = some (0#32, 5#32) := by decide

/-! ## The step, the ports, the variants -/

theorem test_step_S10 :
    after (step ((st 0#32 [(1, 5#32), (2, 7#32)] [] []).withFetchWord 32 0x00221820))
      (fun t => (t.pc, t.readReg 3)) = some (4#32, 12#32) := by decide
theorem test_datapath_S10 :
    after (datapathCycle (st 0#32 [(1, 5#32), (2, 7#32)] [] [(0, 0x00221820#32)]))
      (fun t => (t.pc, t.readReg 3)) = some (4#32, 12#32) := by decide
theorem test_control_rows_2_2 :
    controlSignals (classify 0x23#6) = ⟨true, false, false, true, false, true, true, false⟩ ∧
    controlSignals (classify 0x2B#6) = ⟨true, false, false, false, true, false, false, false⟩ ∧
    controlSignals (classify 0x00#6) = ⟨false, true, false, false, false, true, false, false⟩ ∧
    controlSignals (classify 0x04#6) = ⟨false, false, true, false, false, false, false, false⟩ ∧
    controlSignals (classify 0x02#6) = ⟨false, false, false, false, false, false, false, true⟩ ∧
    controlSignals (classify 0x3F#6) = ⟨false, false, false, false, false, false, false, false⟩ := by
  decide
theorem test_hardwired_zero_V_R7 :
    after (execAdd 0 1 1 (st 0#32 [(1, 0x10#32)] [] [])
      { Config.standard with zeroRegHardwired := true })
      (fun t => (t.pc, t.regs[0])) = some (4#32, 0#32) := by decide
theorem test_slt_unsigned_V_R5 :
    setLessThan 0xFFFFFFFF#32 1#32 { Config.standard with sltSigned := false } = 0#32 := by decide
theorem test_load_then_observe_V_H2 :
    after (clockEdge ⟨false, false, true, true, 0#32, 0x00221820#32⟩ State.reset)
      (fun t => (obsPc t, obsInstr t)) = some (0#32, 0x00221820#32) := by decide
theorem test_load_twice_and_two_spaces_V_H3_V_H4 :
    after (clockEdges [⟨false, false, true, false, 0x100#32, 5#32⟩,
      ⟨false, false, true, false, 0x100#32, 6#32⟩] State.reset)
      (fun t => (t.dmem, t.imem)) = some ([(0x40, 6#32)], []) := by decide

/-! ## Witnesses: the hypotheses of each statement are met together -/

/-- `pc = 0x100` is aligned, `x1 = x2 = 9`, data word 0x40 holds 0x22, and IMEM holds at 0x100 a store
of x2 to address 8 and at 0x104 a load of it. -/
def wit : State :=
  st 0x100#32 [(1, 9#32), (2, 9#32)] [(0x40, 0x22#32)] [(0x40, 0xAC020008#32), (0x41, 0x8C030008#32)]

/-- The standard numbers but with narrowed memories of four words. -/
def narrow : Config := { Config.standard with dmemAddrBits := 4, imemAddrBits := 4 }

theorem test_witness_ExtractFieldIsTheBitRange : (0 ≤ 31 ∧ 31 ≤ 31) ∧ (31 ≤ 31 - 0) := by decide
theorem test_witness_SignExtensionCopiesBitFifteen :
    (15 < 16) ∧ (16 ≤ 16 ∧ 16 < 32) ∧ (31 < 32) ∧ (32 ≤ 32) := by decide
theorem test_witness_DecodeOfEncodeIsIdentity :
    Config.standard.NumbersDistinct ∧ (Instr.rtypeUndef 31 0 31 0x3F#6).wellFormed = true ∧
    (Instr.unrec 0xFFFFFFFF#32).wellFormed = true := by decide
theorem test_witness_EncodeOfDecodeClearsOnlyIgnoredBits :
    Config.standard.NumbersDistinct ∧ opcodeOf 0x00221FE0#32 = Config.standard.opRtype ∧
    opcodeOf 0xFFFFFFFF#32 ≠ Config.standard.opRtype := by decide
theorem test_witness_IgnoredBitsSelectNothing :
    Config.standard.NumbersDistinct ∧ opcodeOf 0x00221820#32 = Config.standard.opRtype ∧
    0x00221820#32 &&& 0xFFFFF83F#32 = 0x00221FE0#32 &&& 0xFFFFF83F#32 := by decide
theorem test_witness_OneTableRowDecidesEveryWord :
    (⟨"UNREC", 0#32, 0#32, 3⟩ : OpcodeRow) ∈ opcodeTable ∧
    (⟨"RTYPE_UNDEF", 0xFC000000#32, 0#32, 2⟩ : OpcodeRow).decides 0#32 = true ∧
    (⟨"ADD", 0xFC00003F#32, 0x20#32, 1⟩ : OpcodeRow).decides 0x00221820#32 = true ∧
    (⟨"RTYPE_UNDEF", 0xFC000000#32, 0#32, 2⟩ : OpcodeRow).decides 0x00221820#32 = false := by decide
theorem test_witness_AssembledBranchReachesItsLabel :
    assembleBranchOffset wit.pc 0x20100#32 = some 0x7FFF#16 ∧ wit.readReg 1 = wit.readReg 2 ∧
    assembleBranchOffset wit.pc 0x20104#32 = none ∧ assembleBranchOffset wit.pc 0x102#32 = none := by
  decide
/-- By hand from 00_scope.md R11: 0xFFFE0004 - 4 is -131072 modulo 2^32, one word less is out of
range; backward over 0 and forward over 2^32. -/
theorem test_assembled_branch_wraps :
    assembleBranchOffset 0x0#32 0xFFFE0004#32 = some 0x8000#16 ∧
    assembleBranchOffset 0x0#32 0xFFFE0000#32 = none ∧
    assembleBranchOffset 0xFFFFFFF8#32 0x4#32 = some 0x2#16 := by decide
theorem test_witness_AssembledJumpReachesItsTarget :
    assembleJumpField wit.pc 0x0FFFFFFC#32 = some 0x3FFFFFF#26 ∧
    assembleJumpField 0x0FFFFFFC#32 0x10000040#32 = some 0x10#26 ∧
    assembleJumpField wit.pc 0x10000000#32 = none := by decide
theorem test_witness_invariant : wit.Inv := by decide
theorem test_witness_StepKeepsTheInvariant :
    wit.Inv ∧ after (step wit) State.pc = some 0x104#32 := by decide
theorem test_witness_ClockEdgeKeepsTheInvariant :
    Config.standard.ResetPcAligned ∧ wit.Inv ∧
    after (clockEdge ⟨true, true, true, true, 1#32, 0#32⟩ wit) State.pc = some 0#32 ∧
    after (clockEdge ⟨false, false, true, true, 4#32, 7#32⟩ wit) State.pc = some 0x100#32 ∧
    after (clockEdge ⟨false, true, false, false, 0#32, 0#32⟩ wit) State.pc = some 0x104#32 := by decide
theorem test_witness_StepCompletesFromEveryAlignedState :
    (st 0xFFFFFFFC#32 [] [] []).Aligned := by decide
theorem test_witness_OnlyMisalignedPcIsRefused : ¬ (st 0x101#32 [] [] []).Aligned := by decide
theorem test_witness_StepRunsTheDecodedInstruction :
    wit.Aligned ∧ decode (wit.imem.read (wordIndex wit.pc)) = .sw 2 0 8#16 := by decide
theorem test_witness_DatapathCycleIsTheDecodedStep :
    Config.standard.NumbersDistinct ∧ narrow.NumbersDistinct := by decide
theorem test_witness_register_type_matches :
    Config.standard.NumbersDistinct ∧
    0x00221FE0#32 &&& 0xFC00003F#32 = encodeRFormat Config.standard.opRtype 0 0 0 fnAdd ∧
    0x00221822#32 &&& 0xFC00003F#32 = encodeRFormat Config.standard.opRtype 0 0 0 0x22#6 ∧
    0x00221824#32 &&& 0xFC00003F#32 = encodeRFormat Config.standard.opRtype 0 0 0 0x24#6 ∧
    0x00221825#32 &&& 0xFC00003F#32 = encodeRFormat Config.standard.opRtype 0 0 0 0x25#6 ∧
    0x0022182A#32 &&& 0xFC00003F#32 = encodeRFormat Config.standard.opRtype 0 0 0 0x2A#6 := by decide
theorem test_witness_other_matches :
    0x8FFFFFFF#32 &&& 0xFC000000#32 = encodeIFormat Config.standard.opLw 0 0 0#16 ∧
    0xAC22FFFC#32 &&& 0xFC000000#32 = encodeIFormat Config.standard.opSw 0 0 0#16 ∧
    0x10220002#32 &&& 0xFC000000#32 = encodeIFormat Config.standard.opBeq 0 0 0#16 ∧
    0x0BFFFFFF#32 &&& 0xFC000000#32 = encodeJFormat Config.standard.opJ 0#26 := by decide
theorem test_witness_matches_of_the_table :
    encodeRFormat Config.standard.opRtype 0 0 0 Config.standard.fnSlt = 0x0000002A#32 ∧
    encodeIFormat Config.standard.opLw 0 0 0#16 = 0x8C000000#32 ∧
    encodeIFormat Config.standard.opSw 0 0 0#16 = 0xAC000000#32 ∧
    encodeIFormat Config.standard.opBeq 0 0 0#16 = 0x10000000#32 ∧
    encodeJFormat Config.standard.opJ 0#26 = 0x08000000#32 := by decide
theorem test_witness_unmatched_function_code :
    opcodeOf 0x00221821#32 = Config.standard.opRtype ∧
    functOf 0x00221821#32 ∉ Config.standard.functionCodes := by decide
theorem test_witness_unrecognized_opcode : opcodeOf 0xFFFFFFFF#32 ∉ Config.standard.opcodes := by decide
theorem test_witness_SetLessThanIsExactUnderBothReadings :
    Config.standard.sltSigned = true ∧
    ({ Config.standard with sltSigned := false } : Config).sltSigned = false ∧
    setLessThan 0x80000000#32 0x7FFFFFFF#32 = 1#32 ∧
    setLessThan 0x80000000#32 0x7FFFFFFF#32 { Config.standard with sltSigned := false } = 0#32 := by
  decide
theorem test_witness_RegisterResultDependsOnlyOnTheOperands :
    wit.readReg 1 = (st 0#32 [(1, 9#32), (2, 9#32)] [] []).readReg 1 ∧
    wit.readReg 2 = (st 0#32 [(1, 9#32), (2, 9#32)] [] []).readReg 2 ∧
    after (exec (.add 3 1 2) wit) (fun t => t.readReg 3) = some 18#32 ∧
    after (exec (.add 3 1 2) (st 0#32 [(1, 9#32), (2, 9#32)] [] [])) (fun t => t.readReg 3) =
      some 18#32 := by decide
theorem test_witness_member_of_the_five_operations :
    Instr.slt ∈ [Instr.add, Instr.sub, Instr.and, Instr.or, Instr.slt] := by simp
theorem test_witness_SwStoresToTheAddressedWord : wit.dmem.wf := by decide
theorem test_witness_MisalignedDataAddressFollowsThePolicy :
    wit.dmem.wf ∧ ({ Config.standard with dmemMisalign := .refuse } : Config).dmemMisalign = .refuse ∧
    (effectiveAddress 1 0#16 wit { Config.standard with dmemMisalign := .refuse }).toNat % 4 ≠ 0 := by
  decide
theorem test_witness_NarrowedMemoryFaultsBeyondItsEnd :
    narrow.dmemMisalign = .truncate ∧
    2 ^ narrow.dmemAddrBits ≤ (effectiveAddress 1 7#16 wit narrow).toNat ∧
    wit.Aligned ∧ 2 ^ narrow.imemAddrBits ≤ wit.pc.toNat ∧ Config.standard.FullMemories ∧
    (effectiveAddress 0 (BitVec.ofNat 16 (2 ^ narrow.dmemAddrBits)) wit narrow).toNat % 4 = 0 ∧
    2 ^ narrow.dmemAddrBits ≤
      (effectiveAddress 0 (BitVec.ofNat 16 (2 ^ narrow.dmemAddrBits)) wit narrow).toNat ∧
    (0xFFFFFFFC#32).toNat % 4 = 0 ∧ 2 ^ narrow.imemAddrBits ≤ (0xFFFFFFFC#32).toNat ∧
    2 ^ narrow.dmemAddrBits ≤ (0xFFFFFFFC#32).toNat := by decide
/-- The state after the store of `wit`. -/
def wit1 : State :=
  { wit with pc := 0x104#32, dmem := [(2, 9#32), (0x40, 0x22#32)] }
theorem test_witness_store_step :
    wit.nextInstr = .sw 2 0 8#16 ∧ step wit = .next wit1 := ⟨by decide, by rfl⟩
theorem test_witness_UnstoredWordPersistsOverRuns : wit.Inv ∧ RunsWithoutStoringTo 0x40 1 wit wit1 :=
  ⟨by decide, by decide, wit1, test_witness_store_step.2, rfl⟩
theorem test_witness_StoreLoadRoundTripAcrossRuns :
    wit.Inv ∧ wit.nextInstr = .sw 2 0 8#16 ∧ step wit = .next wit1 ∧
    RunsWithoutStoringTo (wordIndex (effectiveAddress 0 8#16 wit)) 0 wit1 wit1 ∧
    wit1.nextInstr = .lw 3 0 8#16 ∧
    wordIndex (effectiveAddress 0 8#16 wit1) = wordIndex (effectiveAddress 0 8#16 wit) :=
  ⟨by decide, by decide, test_witness_store_step.2, rfl, by decide, by decide⟩
theorem test_witness_BranchTargetIsFourTimesTheOffset :
    wit.readReg 1 = wit.readReg 2 ∧ wit.Aligned ∧
    assembleBranchOffset 0x20000#32 0x4#32 = some 0x8000#16 ∧
    ((0x4#32).toNat : Int) - ((0x20000#32 + 4#32).toNat : Int) = -131072 ∧
    ((0x20000#32).toNat : Int) - ((0x0#32 + 4#32).toNat : Int) = 131068 := by decide
theorem test_witness_UnloadedInstructionWritesRegisterZeroOnly :
    (st 0x40#32 [] [] [(0, 0x08000010#32)]).Aligned ∧
    ∀ p ∈ (st 0x40#32 [] [] [(0, 0x08000010#32)]).imem, p.1 ≠ wordIndex 0x40#32 := by decide
theorem test_witness_WritesOfEveryInstruction :
    wit.dmem.wf ∧ after (exec (.sw 2 1 0#16) wit) (fun t => t.dmem.read 2) = some 9#32 ∧
    after (exec (.lw 2 1 0#16) wit) (fun t => t.readReg 2) = some 0#32 := by decide
theorem test_witness_ControlSignalsDependOnTheOpcodeOnly :
    opcodeOf 0x00221820#32 = opcodeOf 0x00221821#32 ∧ Config.standard.NumbersDistinct ∧
    after (stage 0x00221820#32 wit) (fun t => t.regWrite.isSome) = some true ∧
    after (stage 0x00221821#32 wit) (fun t => t.regWrite.isSome) = some true ∧
    after (stage 0x08000004#32 wit) (fun t => t.nextPc) = some 0x10#32 := by decide
theorem test_witness_HardwiredRegisterZeroIsNeverWritten :
    ({ Config.standard with zeroRegHardwired := true } : Config).zeroRegHardwired = true ∧
    after (execWith { Config.standard with zeroRegHardwired := true } (.lw 0 1 0#16) wit) State.pc =
      some 0x104#32 ∧ Config.standard.zeroRegHardwired = false := by decide
theorem test_witness_DrawNumbersAreNeverReused :
    after (execWith Config.standard (.rtypeUndef 0 0 0 0#6) wit) State.drawCount = some 1 ∧
    after (execWith Config.standard (.j 0#26) wit) State.drawCount = some 0 ∧
    after (clockEdge ⟨true, false, false, false, 0#32, 0#32⟩ { wit with drawCount := 3 })
      State.drawCount = some 3 := by decide
theorem test_witness_ResetEdgeRestoresTheResetValues :
    (⟨true, true, true, false, 1#32, 0#32⟩ : PortInputs).rst = true ∧
    ({ Config.standard with resetClearsMem := false } : Config).resetClearsMem = false ∧
    Config.standard.resetClearsMem = true := by decide
theorem test_witness_HostLoadReplacesOneWord :
    wit.Aligned ∧ (0xFFFFFFFC#32).toNat % 4 = 0 ∧ wit.imem.wf ∧ wit.dmem.wf := by decide
theorem test_witness_OnlyTheRunEdgeLooksAtThePc :
    (⟨false, false, true, true, 8#32, 7#32⟩ : PortInputs).run = false ∧
    after (clockEdge ⟨false, false, true, true, 8#32, 7#32⟩ (wit.setPc 0x22#32))
      (fun t => (t.pc, t.imem.read 2)) = some (0x22#32, 7#32) ∧
    (⟨true, true, false, false, 0#32, 0#32⟩ : PortInputs).rst = true ∧
    ¬ (wit.setPc 0x22#32).Aligned := by decide
theorem test_witness_ClockEdgeFollowsThePorts :
    (⟨false, true, true, false, 0#32, 0#32⟩ : PortInputs).rst = false ∧ (0x101#32).toNat % 4 ≠ 0 := by
  decide
theorem test_clockEdge_refusals :
    clockEdge ⟨false, true, true, false, 0#32, 0#32⟩ wit = .refused .runAndLoad ∧
    clockEdge ⟨false, false, true, false, 0x101#32, 0#32⟩ wit =
      .refused (.misalignedLoadAddress 0x101#32) := ⟨by rfl, by rfl⟩
theorem test_witness_InstructionMemoryIsWrittenOnlyByTheHost :
    after (clockEdge ⟨false, false, true, false, 4#32, 7#32⟩ wit) State.pc = some 0x100#32 ∧
    after (step wit) State.pc = some 0x104#32 ∧ wit.Inv ∧
    after (loadInstruction wit.pc 0x08000004#32 wit) State.pc = some 0x100#32 := by decide
theorem test_witness_DumpShowsPcInstructionAndRegisters :
    wit.Aligned ∧ fetch wit = .next 0xAC020008#32 := ⟨by decide, by rfl⟩
theorem test_witness_ObservationMakesNoFetchCheck :
    ¬ (st 0x22#32 [] [] [(8, 0x08000008#32)]).Aligned ∧
    (dump (st 0x22#32 [] [] [(8, 0x08000008#32)])).instr = 0x08000008#32 ∧
    (st 0x20#32 [] [] []).Aligned ∧
    2 ^ ({ Config.standard with imemAddrBits := 5 } : Config).imemAddrBits ≤
      (st 0x20#32 [] [] []).pc.toNat ∧
    (dump (st 0x20#32 [] [] []) { Config.standard with imemAddrBits := 5 }).instr = 0#32 := by decide
theorem test_witness_QuiescentStatesAreTheSelfLoops :
    (st 0x20#32 [] [] [(8, 0x08000008#32)]).Aligned ∧
    after (step (st 0x20#32 [] [] [(8, 0x08000008#32)])) State.pc = some 0x20#32 ∧
    after (step (st 0x14#32 [] [] [(5, 0x1000FFFF#32)])) State.pc = some 0x14#32 := by decide
theorem test_witness_quiescent : (st 0x20#32 [] [] [(8, 0x08000008#32)]).Quiescent := by rfl

end Sys2Proof.Tests
end

section
/-! PROOFS. The Bit Field Codec (00_scope.md R10, R12): what each bit of a field and of a sign-extended
half is, and the two obligations that follow. -/

namespace Sys2Proof

open Machine (extractField_toNat)

theorem extractField_getLsbD (w : Word) (a b i : Nat) :
    (extractField w a b).getLsbD i = (decide (i < b - a + 1) && w.getLsbD (a + i)) :=
  BitVec.getLsbD_extractLsb

theorem sext32_getLsbD_of_lt (h : BitVec 16) {i : Nat} (hi : i < 16) :
    (sext32 h).getLsbD i = h.getLsbD i := by
  have hi32 : i < 32 := by omega
  rw [sext32, BitVec.getLsbD_signExtend, if_pos hi, decide_eq_true hi32, Bool.true_and]

theorem sext32_getLsbD_of_ge (h : BitVec 16) {i : Nat} (hlo : 16 ≤ i) (hhi : i < 32) :
    (sext32 h).getLsbD i = h.getLsbD 15 := by
  have hi : ¬ i < 16 := by omega
  rw [sext32, BitVec.getLsbD_signExtend, if_neg hi, decide_eq_true hhi, Bool.true_and,
    BitVec.msb_eq_getLsbD_last]

theorem sext32_toInt (h : BitVec 16) : (sext32 h).toInt = h.toInt :=
  BitVec.toInt_signExtend_of_le (by decide)

theorem imm16Of_eq_ofNat (w : Word) : imm16Of w = BitVec.ofNat 16 w.toNat :=
  BitVec.eq_of_toNat_eq (by rw [imm16Of_toNat, BitVec.toNat_ofNat])

/-- The source's `signExtend16` extends the immediate field of its container. -/
theorem signExtend16_eq (w : Word) : signExtend16 w = sext32 (imm16Of w) := rfl

/-- Settles O1: the value is the model's `extractField_toNat`, the bits are `extractField_getLsbD`. -/
theorem extractFieldIsTheBitRange : Obligations.ExtractFieldIsTheBitRange := by
  unfold Obligations.ExtractFieldIsTheBitRange
  refine ⟨fun w a b _ _ => ⟨extractField_toNat w a b, fun i hi => ?_⟩, by decide⟩
  have inField : i < b - a + 1 := by omega
  rw [extractField_getLsbD, decide_eq_true inField, Bool.true_and]

/-- Settles O2: bits and signed value by the lemmas of `sext32`; the container's upper bits go when
the immediate field is taken. -/
theorem signExtensionCopiesBitFifteen : Obligations.SignExtensionCopiesBitFifteen := by
  unfold Obligations.SignExtensionCopiesBitFifteen
  refine ⟨fun h => ⟨fun i => sext32_getLsbD_of_lt h, fun i => sext32_getLsbD_of_ge h, sext32_toInt h⟩,
    fun w => ?_, fun n v hn => BitVec.toNat_setWidth_of_le hn, by decide, by decide⟩
  rw [signExtend16_eq, imm16Of_eq_ofNat]

end Sys2Proof
end

section
/-! PROOFS. The state (10_state.md): the state each instruction leaves in the standard
configuration, said once per instruction; what the dump shows; and the obligations about the pc, about
a register that is read and written in one cycle, and about the dump. -/

namespace Sys2Proof.Machine

theorem zeroFlag_sub_iff (a b : Word) : zeroFlag (a - b) = true ↔ a = b := by
  rw [zeroFlag_iff]
  exact sub_eq_zero

/-! The next state of every instruction, in the standard configuration. -/

section
variable (rd rs rt : RegIdx) (imm16 : BitVec 16) (jfield : BitVec 26) (funct : BitVec 6)
  (word : Word) (s : State)

theorem exec_lw : exec (.lw rt rs imm16) s =
    .next (s.writeReg rt (s.dmem.read (wordIndex (effectiveAddress rs imm16 s)))).advance :=
  execLw_standard rt rs imm16 s

theorem exec_sw : exec (.sw rt rs imm16) s =
    .next (s.setData (effectiveAddress rs imm16 s) (s.readReg rt)).advance :=
  execSw_standard rt rs imm16 s

theorem exec_add : exec (.add rd rs rt) s =
    .next (s.writeReg rd (s.readReg rs + s.readReg rt)).advance := rfl

theorem exec_sub : exec (.sub rd rs rt) s =
    .next (s.writeReg rd (s.readReg rs - s.readReg rt)).advance := rfl

theorem exec_and : exec (.and rd rs rt) s =
    .next (s.writeReg rd (s.readReg rs &&& s.readReg rt)).advance := rfl

theorem exec_or : exec (.or rd rs rt) s =
    .next (s.writeReg rd (s.readReg rs ||| s.readReg rt)).advance := rfl

theorem exec_slt : exec (.slt rd rs rt) s =
    .next (s.writeReg rd (setLessThan (s.readReg rs) (s.readReg rt))).advance := rfl

/-- BEQ branches exactly where its operands are equal (43_control_transfer.md R190). -/
theorem exec_beq : exec (.beq rs rt imm16) s =
    .next (s.setPc
      (if s.readReg rs = s.readReg rt then branchTarget (s.pc + 4#32) imm16 else s.pc + 4#32)) := by
  simp only [exec, execBeq, zeroFlag_sub_iff, State.pcPlus4]

theorem exec_j : exec (.j jfield) s =
    .next (s.setPc (jumpTarget (s.pc + 4#32) jfield)) := rfl

theorem exec_rtypeUndef : exec (.rtypeUndef rd rs rt funct) s =
    .next (s.countDraw.writeReg rd
      (Config.draw32 s.drawCount funct (s.readReg rs) (s.readReg rt))).advance := rfl

theorem exec_unrec : exec (.unrec word) s = .next s.advance := rfl

end

/-! The shape shared by the instructions that write a register: the write, then `pc + 4`. -/

theorem State.writeReg_advance_pc (s : State) (i : RegIdx) (v : Word) (c : Config) :
    (s.writeReg i v c).advance.pc = s.pc + 4#32 := by
  rw [State.advance_pc, State.writeReg_pc]

theorem State.readReg_writeReg_advance (s : State) (i : RegIdx) (v : Word) :
    (s.writeReg i v).advance.readReg i = v := by
  rw [State.readReg_advance, State.readReg_writeReg_standard]

/-! The dump (10_state.md R45). -/

section
variable (s : State) (c : Config)

@[simp] theorem dump_pc : (dump s c).pc = s.pc := rfl

@[simp] theorem dump_instr : (dump s c).instr = s.imem.read (wordIndex s.pc) := rfl

theorem dump_regs : (dump s c).regs = (List.finRange 32).map fun i => s.readReg i c := rfl

theorem dump_regs_length : (dump s c).regs.length = 32 := by
  rw [dump_regs, List.length_map, List.length_finRange]

theorem dump_regs_getElem? (i : RegIdx) : (dump s c).regs[i.val]? = some (s.readReg i c) := by
  simp [dump_regs]

end

/-- Settles O41: one case per instruction, by its next state. -/
theorem nextPcOfEveryInstruction : Obligations.NextPcOfEveryInstruction := by
  unfold Obligations.NextPcOfEveryInstruction
  intro i s
  cases i with
  | lw rt rs imm16 => exact ⟨_, exec_lw rs rt imm16 s, State.writeReg_advance_pc ..⟩
  | sw rt rs imm16 => exact ⟨_, exec_sw rs rt imm16 s, rfl⟩
  | add rd rs rt => exact ⟨_, exec_add rd rs rt s, State.writeReg_advance_pc ..⟩
  | sub rd rs rt => exact ⟨_, exec_sub rd rs rt s, State.writeReg_advance_pc ..⟩
  | and rd rs rt => exact ⟨_, exec_and rd rs rt s, State.writeReg_advance_pc ..⟩
  | or rd rs rt => exact ⟨_, exec_or rd rs rt s, State.writeReg_advance_pc ..⟩
  | slt rd rs rt => exact ⟨_, exec_slt rd rs rt s, State.writeReg_advance_pc ..⟩
  | beq rs rt imm16 => exact ⟨_, exec_beq rs rt imm16 s, (ite_eq_or_eq ..).symm⟩
  | j jfield => exact ⟨_, exec_j jfield s, rfl⟩
  | rtypeUndef rd rs rt funct =>
    exact ⟨_, exec_rtypeUndef rd rs rt funct s, State.writeReg_advance_pc ..⟩
  | unrec word => exact ⟨_, exec_unrec word s, rfl⟩

/-- Settles O43: the value written is a function of the old state, whichever registers coincide, and
the write is read back by `readReg_writeReg_advance`. -/
theorem readsSeeTheOldValueOfAWrittenRegister :
    Obligations.ReadsSeeTheOldValueOfAWrittenRegister := by
  unfold Obligations.ReadsSeeTheOldValueOfAWrittenRegister
  intro r q imm16 s
  have readBack (v : Word) : (s.writeReg r v).advance.readReg r = v :=
    s.readReg_writeReg_advance r v
  exact
    ⟨⟨_, exec_add r r q s, readBack _⟩, ⟨_, exec_add r q r s, readBack _⟩,
      ⟨_, exec_sub r r q s, readBack _⟩, ⟨_, exec_sub r q r s, readBack _⟩,
      ⟨_, exec_and r r q s, readBack _⟩, ⟨_, exec_and r q r s, readBack _⟩,
      ⟨_, exec_or r r q s, readBack _⟩, ⟨_, exec_or r q r s, readBack _⟩,
      ⟨_, exec_slt r r q s, readBack _⟩, ⟨_, exec_slt r q r s, readBack _⟩,
      ⟨_, exec_lw r r imm16 s, readBack _⟩⟩

/-- Settles O52: the fields of the dump by their lemmas, and the fetch of an aligned pc by
`fetch_standard`. -/
theorem dumpShowsPcInstructionAndRegisters : Obligations.DumpShowsPcInstructionAndRegisters := by
  unfold Obligations.DumpShowsPcInstructionAndRegisters
  intro s
  refine ⟨dump_pc s _, fun aligned => ⟨dump_instr s _, ?_⟩, dump_regs_length s _,
    dump_regs_getElem? s _⟩
  rw [dump_instr]
  exact fetch_standard (s.aligned_iff.mp aligned)

end Sys2Proof.Machine
end

section
/-! PROOFS. The memories (20_memory.md): where an access faults, as equivalences that lead every
fault back to `memoryIndex`; what a host load and a clock edge can answer; that no instruction writes the
instruction memory; and the three obligations that follow. -/

namespace Sys2Proof.Machine

/-! Where an operation faults (20_memory.md R64). -/

/-- A chain faults where its first operation does, or where it goes on and the rest does. -/
theorem andThen_eq_fault {α β : Type} {o : Result α} {f : α → Result β} {r : Fault} :
    andThen o f = .fault r ↔ o = .fault r ∨ ∃ v, o = .next v ∧ f v = .fault r := by
  cases o <;> simp

/-- A chain whose continuation always answers next faults only where its first operation does. -/
theorem andThen_next_eq_fault {α β : Type} {o : Result α} {g : α → β} {r : Fault} :
    andThen o (fun v => .next (g v)) = .fault r ↔ o = .fault r := by
  cases o <;> simp

theorem memoryIndex_eq_fault {bits : Nat} {a : Word} {r : Fault} :
    memoryIndex bits a = .fault r ↔ 2 ^ bits ≤ a.toNat ∧ r = .outOfRangeAddress a := by
  unfold memoryIndex addressInRange
  by_cases inRange : a.toNat < 2 ^ bits
  · simp [inRange]
  · simp [inRange, Nat.not_lt.mp inRange, eq_comm]

/-- A data address faults where the policy lets it pass and it lies beyond the memory. -/
theorem dataIndex_eq_fault {a : Word} {c : Config} {r : Fault} :
    dataIndex a c = .fault r ↔
      (c.dmemMisalign = .truncate ∨ isAligned a = true) ∧
        memoryIndex c.dmemAddrBits a = .fault r := by
  unfold dataIndex
  cases policy : c.dmemMisalign with
  | truncate => simp
  | refuse => cases aligned : isAligned a <;> simp

theorem loadWord_eq_fault {a : Word} {s : State} {c : Config} {r : Fault} :
    loadWord a s c = .fault r ↔ dataIndex a c = .fault r :=
  andThen_next_eq_fault

theorem storeWord_eq_fault {a v : Word} {s : State} {c : Config} {r : Fault} :
    storeWord a v s c = .fault r ↔ dataIndex a c = .fault r :=
  andThen_next_eq_fault

theorem fetch_eq_fault {s : State} {c : Config} {r : Fault} :
    fetch s c = .fault r ↔
      isAligned s.pc = true ∧ memoryIndex c.imemAddrBits s.pc = .fault r := by
  unfold fetch
  cases aligned : isAligned s.pc <;> simp [andThen_next_eq_fault]

section
variable {rt rs : RegIdx} {imm16 : BitVec 16} {i : Instr} {s : State} {c : Config} {r : Fault}

theorem execLw_eq_fault :
    execLw rt rs imm16 s c = .fault r ↔ dataIndex (effectiveAddress rs imm16 s c) c = .fault r :=
  andThen_next_eq_fault.trans loadWord_eq_fault

theorem execSw_eq_fault :
    execSw rt rs imm16 s c = .fault r ↔ dataIndex (effectiveAddress rs imm16 s c) c = .fault r :=
  andThen_next_eq_fault.trans storeWord_eq_fault

/-- An instruction faults only at a data address: LW and SW have one, the others always answer
next. -/
theorem dataIndex_eq_fault_of_execWith (h : execWith c i s = .fault r) :
    ∃ a, dataIndex a c = .fault r := by
  cases i with
  | lw rt rs imm16 => exact ⟨_, execLw_eq_fault.mp h⟩
  | sw rt rs imm16 => exact ⟨_, execSw_eq_fault.mp h⟩
  | add | sub | and | or | slt | beq | j | rtypeUndef | unrec => nomatch h

theorem stepWith_eq_fault :
    stepWith c s = .fault r ↔ fetch s c = .fault r ∨
      ∃ w, fetch s c = .next w ∧ execWith c (decode w c) s = .fault r :=
  andThen_eq_fault

end

/-! The host loads (20_memory.md R80, R82). -/

section
variable {a w : Word} {s t : State} {c : Config} {r : Fault}

theorem loadInstruction_eq_fault :
    loadInstruction a w s c = .fault r ↔
      isAligned a = true ∧ memoryIndex c.imemAddrBits a = .fault r := by
  unfold loadInstruction
  cases aligned : isAligned a <;> simp [andThen_next_eq_fault]

theorem loadDataWord_eq_fault :
    loadDataWord a w s c = .fault r ↔
      isAligned a = true ∧ memoryIndex c.dmemAddrBits a = .fault r := by
  unfold loadDataWord
  cases aligned : isAligned a <;> simp [andThen_next_eq_fault]

theorem loadInstruction_eq_next (h : loadInstruction a w s c = .next t) :
    t = s.setInstruction a w := by
  unfold loadInstruction at h
  split at h
  · obtain ⟨_, -, ht⟩ := andThen_eq_next.mp h
    cases ht
    rfl
  · cases h

theorem loadDataWord_eq_next (h : loadDataWord a w s c = .next t) : t = s.setData a w := by
  unfold loadDataWord at h
  split at h
  · obtain ⟨_, -, ht⟩ := andThen_eq_next.mp h
    cases ht
    rfl
  · cases h

theorem loadInstruction_standard (aligned : isAligned a = true) :
    loadInstruction a w s = .next (s.setInstruction a w) := by
  simp [loadInstruction, aligned, Config.standard]

theorem loadDataWord_standard (aligned : isAligned a = true) :
    loadDataWord a w s = .next (s.setData a w) := by
  simp [loadDataWord, aligned, Config.standard]

end

/-! The clock edge (10_state.md R40). -/

/-- What an edge does, by the ports that select it: reset, refusal, one of the two loads, a cycle,
or hold. -/
theorem clockEdge_cases (p : PortInputs) (s : State) (c : Config) :
    (p.rst = true ∧ clockEdge p s c = .next (resetEdge s c)) ∨
    (p.rst = false ∧ p.run = true ∧ p.ldEn = true ∧ clockEdge p s c = .refused .runAndLoad) ∨
    (p.rst = false ∧ p.run = false ∧ p.ldEn = true ∧ p.ldSel = true ∧
      clockEdge p s c = loadInstruction p.ldAddr p.ldData s c) ∨
    (p.rst = false ∧ p.run = false ∧ p.ldEn = true ∧ p.ldSel = false ∧
      clockEdge p s c = loadDataWord p.ldAddr p.ldData s c) ∨
    (p.rst = false ∧ p.run = true ∧ p.ldEn = false ∧ clockEdge p s c = stepWith c s) ∨
    (p.rst = false ∧ p.run = false ∧ p.ldEn = false ∧ clockEdge p s c = .next s) := by
  unfold clockEdge
  cases rst : p.rst
  · cases run : p.run <;> cases ldEn : p.ldEn
    · simp
    · cases ldSel : p.ldSel <;> simp
    · simp
    · simp
  · simp

/-! Where neither memory is narrowed nothing faults (20_memory.md R64). -/

section
variable {c : Config} (full : c.FullMemories)
include full

theorem dataIndex_ne_fault_of_full (a : Word) (r : Fault) :
    dataIndex a c ≠ .fault r := by
  rw [ne_eq, dataIndex_eq_fault, full.1, memoryIndex_full]
  simp

theorem execWith_ne_fault_of_full (i : Instr) (s : State) (r : Fault) :
    execWith c i s ≠ .fault r := fun h =>
  let ⟨a, faults⟩ := dataIndex_eq_fault_of_execWith h
  dataIndex_ne_fault_of_full full a r faults

theorem stepWith_ne_fault_of_full (s : State) (r : Fault) :
    stepWith c s ≠ .fault r := by
  rw [ne_eq, stepWith_eq_fault, fetch_eq_fault, full.2, memoryIndex_full]
  simp [execWith_ne_fault_of_full full]

theorem clockEdge_ne_fault_of_full (p : PortInputs) (s : State) (r : Fault) :
    clockEdge p s c ≠ .fault r := by
  rcases clockEdge_cases p s c with
    ⟨-, edge⟩ | ⟨-, -, -, edge⟩ | ⟨-, -, -, -, edge⟩ | ⟨-, -, -, -, edge⟩ | ⟨-, -, -, edge⟩ |
    ⟨-, -, -, edge⟩ <;> rw [edge]
  · nofun
  · nofun
  · rw [ne_eq, loadInstruction_eq_fault, full.2, memoryIndex_full]
    simp
  · rw [ne_eq, loadDataWord_eq_fault, full.1, memoryIndex_full]
    simp
  · exact stepWith_ne_fault_of_full full s r
  · nofun

end

/-! The instruction memory in a cycle (20_memory.md R85). -/

section
variable {c : Config} {i : Instr} {s t : State}

/-- No instruction writes the instruction memory. -/
theorem execWith_imem (h : execWith c i s = .next t) : t.imem = s.imem := by
  cases i with
  | lw rt rs imm16 => rw [execLw_eq_next h, State.advance_imem, State.writeReg_imem]
  | sw rt rs imm16 => rw [execSw_eq_next h]
  | add | sub | and | or | slt | rtypeUndef =>
    cases h
    exact State.writeReg_imem ..
  | beq | j | unrec =>
    cases h
    rfl

theorem stepWith_imem (h : stepWith c s = .next t) : t.imem = s.imem :=
  execWith_imem (stepWith_eq_next h).2

/-- An edge that neither resets nor loads an instruction keeps the instruction memory. -/
theorem clockEdge_imem {p : PortInputs} (noReset : p.rst = false)
    (noLoad : (p.ldEn && p.ldSel) = false) (h : clockEdge p s c = .next t) : t.imem = s.imem := by
  rcases clockEdge_cases p s c with
    ⟨rst, -⟩ | ⟨-, -, -, edge⟩ | ⟨-, -, ldEn, ldSel, -⟩ | ⟨-, -, -, -, edge⟩ | ⟨-, -, -, edge⟩ |
    ⟨-, -, -, edge⟩
  · simp [noReset] at rst
  · simp [edge] at h
  · simp [ldEn, ldSel] at noLoad
  · rw [loadDataWord_eq_next (edge.symm.trans h), State.setData_imem]
  · exact stepWith_imem (edge.symm.trans h)
  · cases edge.symm.trans h
    rfl

/-- From an aligned pc a step runs the word at the pc. -/
theorem step_of_aligned (aligned : isAligned s.pc = true) :
    step s = exec (decode (s.imem.read (wordIndex s.pc))) s := by
  rw [step, fetch_standard aligned, andThen_next]

end

/-- Settles O51: no cycle writes the instruction memory by `execWith_imem`, hence no such edge by
`clockEdge_cases`; the loaded word is read back at the pc, which the load keeps. -/
theorem instructionMemoryIsWrittenOnlyByTheHost :
    Obligations.InstructionMemoryIsWrittenOnlyByTheHost := by
  unfold Obligations.InstructionMemoryIsWrittenOnlyByTheHost
  refine ⟨fun c p s t => clockEdge_imem, fun s t h => ?_, fun s t w inv load => ?_⟩
  · exact stepWith_imem ((stepWith_standard s).trans h)
  · obtain ⟨aligned, -, imemWf⟩ := inv
    obtain rfl := loadInstruction_eq_next load
    have aligned' : isAligned (s.setInstruction s.pc w).pc = true := s.aligned_iff.mp aligned
    rw [step_of_aligned aligned', State.setInstruction_pc, State.setInstruction_imem,
      Memory.read_write_same imemWf]

/-- Settles O32: every fault is one of `memoryIndex`, which is beyond the end of the memory in the
first three clauses and impossible with 32 address bits. -/
theorem narrowedMemoryFaultsBeyondItsEnd : Obligations.NarrowedMemoryFaultsBeyondItsEnd := by
  unfold Obligations.NarrowedMemoryFaultsBeyondItsEnd
  refine ⟨fun c rt rs imm16 s passes beyond => ?_, fun c s aligned beyond => ?_,
    fun c address word s aligned => ?_, fun c i p s a full => ?_⟩
  · rw [← isAligned_iff] at passes
    have faults := dataIndex_eq_fault.mpr ⟨passes, memoryIndex_eq_fault.mpr ⟨beyond, rfl⟩⟩
    exact ⟨execLw_eq_fault.mpr faults, execSw_eq_fault.mpr faults⟩
  · exact stepWith_eq_fault.mpr (.inl (fetch_eq_fault.mpr
      ⟨s.aligned_iff.mp aligned, memoryIndex_eq_fault.mpr ⟨beyond, rfl⟩⟩))
  · rw [← isAligned_iff] at aligned
    exact
      ⟨fun beyond => loadInstruction_eq_fault.mpr ⟨aligned, memoryIndex_eq_fault.mpr ⟨beyond, rfl⟩⟩,
        fun beyond => loadDataWord_eq_fault.mpr ⟨aligned, memoryIndex_eq_fault.mpr ⟨beyond, rfl⟩⟩⟩
  · exact ⟨execWith_ne_fault_of_full full i s _, stepWith_ne_fault_of_full full s _,
      clockEdge_ne_fault_of_full full p s _⟩

/-- Settles O49: the next state is `setInstruction` or `setData`, whose write is read back by the
laws of a memory and which keeps the other fields by definition. -/
theorem hostLoadReplacesOneWord : Obligations.HostLoadReplacesOneWord := by
  unfold Obligations.HostLoadReplacesOneWord
  constructor
  · intro a w s _ aligned imemWf
    have load := loadInstruction_standard (w := w) (s := s) ((isAligned_iff a).mpr aligned)
    exact ⟨s.setInstruction a w, load, load, Memory.read_write_same imemWf _ w,
      fun k => Memory.read_write_other imemWf w, rfl, fun _ _ => rfl, fun _ _ => rfl, rfl⟩
  · intro a w s _ aligned dmemWf
    have load := loadDataWord_standard (w := w) (s := s) ((isAligned_iff a).mpr aligned)
    exact ⟨s.setData a w, load, load, Memory.read_write_same dmemWf _ w,
      fun k => Memory.read_write_other dmemWf w, rfl, fun _ _ => rfl, fun _ => rfl, rfl⟩

end Sys2Proof.Machine
end

section
/-! PROOFS. The encoding (30_encoding.md R98): the parts of a jump target, first as numbers, then as the
fields they are made of; and the obligation about them. -/

namespace Sys2Proof.Machine

/-- The mask of the region bits clears the low 28 bits, as a shift down and up again does. -/
theorem regionBits_eq_shift (a : Word) : a &&& 0xF0000000#32 = a >>> 28 <<< 28 :=
  (BitVec.shiftLeft_ushiftRight (x := a) (n := 28)).symm

theorem regionBits_toNat (a : Word) :
    (a &&& 0xF0000000#32).toNat = (a.toNat / 2 ^ 28) <<< 28 := by
  rw [regionBits_eq_shift, BitVec.toNat_shiftLeft, BitVec.toNat_ushiftRight,
    Nat.shiftRight_eq_div_pow, Nat.mod_eq_of_lt]
  rw [Nat.shiftLeft_eq]
  omega

/-- No bit of the field is lost by the shift. -/
theorem shiftedJfield_toNat (jfield : BitVec 26) :
    (jfield.zeroExtend 32 <<< 2 : Word).toNat = jfield.toNat * 2 ^ 2 := by
  rw [BitVec.toNat_shiftLeft, BitVec.toNat_setWidth, Nat.shiftLeft_eq]
  omega

/-- The shifted field is a 28-bit quantity. -/
theorem shiftedJfield_lt (jfield : BitVec 26) :
    (jfield.zeroExtend 32 <<< 2 : Word).toNat < 2 ^ 28 := by
  rw [shiftedJfield_toNat]
  omega

/-- Region bits and shifted field do not overlap, so the `|||` of the jump target is a sum. -/
theorem jumpTarget_toNat (pcPlus4 : Word) (jfield : BitVec 26) :
    (jumpTarget pcPlus4 jfield).toNat =
      pcPlus4.toNat / 2 ^ 28 * 2 ^ 28 + jfield.toNat * 2 ^ 2 := by
  rw [jumpTarget, BitVec.toNat_or, regionBits_toNat,
    ← Nat.shiftLeft_add_eq_or_of_lt (shiftedJfield_lt jfield), Nat.shiftLeft_eq,
    shiftedJfield_toNat]

theorem jumpTarget_eq_append (pcPlus4 : Word) (jfield : BitVec 26) :
    jumpTarget pcPlus4 jfield = extractField pcPlus4 28 31 ++ jfield ++ 0#2 := by
  apply BitVec.eq_of_toNat_eq
  rw [jumpTarget_toNat, append_toNat, append_toNat, extractField_toNat,
    Nat.shiftRight_eq_div_pow, BitVec.toNat_ofNat]
  omega

/-- Settles O37: the next state of J holds the masked form by definition; the concatenation is
`jumpTarget_eq_append` and the bound is `shiftedJfield_lt`. -/
theorem jumpTargetIsRegionFieldAndTwoZeros : Obligations.JumpTargetIsRegionFieldAndTwoZeros := by
  unfold Obligations.JumpTargetIsRegionFieldAndTwoZeros
  exact ⟨fun jfield s => ⟨_, exec_j jfield s, rfl, jumpTarget_eq_append (s.pc + 4#32) jfield⟩,
    shiftedJfield_lt⟩

end Sys2Proof.Machine
end

section
/-! PROOFS. The cycle and its datapath (40_cycle_datapath.md): the next pc stays aligned (R151);
register 0 where it is hardwired (R149); what the datapath stages for each class of instruction and
how the control signals alone fix it (R127); and the three obligations that follow. -/

namespace Sys2Proof.Machine

/-! Alignment of the three next pcs (R151). -/

theorem add_four_aligned {a : Word} (aligned : a.toNat % 4 = 0) : (a + 4#32).toNat % 4 = 0 := by
  rw [BitVec.toNat_add, BitVec.toNat_ofNat]
  omega

/-- The offset is shifted by two bits, so adding it keeps bits [1:0]. -/
theorem branchTarget_aligned {a : Word} (aligned : a.toNat % 4 = 0) (imm16 : BitVec 16) :
    (branchTarget a imm16).toNat % 4 = 0 := by
  rw [branchTarget, BitVec.toNat_add, BitVec.toNat_shiftLeft, Nat.shiftLeft_eq]
  omega

theorem jumpTarget_aligned (a : Word) (jfield : BitVec 26) :
    (jumpTarget a jfield).toNat % 4 = 0 := by
  rw [jumpTarget_toNat]
  omega

/-- Every instruction completes and leaves an aligned pc aligned. -/
theorem exec_completes_aligned (i : Instr) {s : State} (aligned : s.Aligned) :
    ∃ t, exec i s = .next t ∧ t.Aligned := by
  have pcPlus4 : (s.pc + 4#32).toNat % 4 = 0 := add_four_aligned aligned
  obtain ⟨t, run, pc⟩ := nextPcOfEveryInstruction i s
  refine ⟨t, run, ?_⟩
  cases i with
  | beq rs rt imm16 =>
    rcases pc with sequential | taken
    · rwa [State.Aligned, sequential]
    · rw [State.Aligned, taken]
      exact branchTarget_aligned pcPlus4 imm16
  | j jfield =>
    rw [State.Aligned, pc]
    exact jumpTarget_aligned _ jfield
  | lw | sw | add | sub | and | or | slt | rtypeUndef | unrec => rwa [State.Aligned, pc]

/-- Settles O16: the fetch succeeds at an aligned pc, and the instruction it decodes to completes by
`exec_completes_aligned`. -/
theorem stepCompletesFromEveryAlignedState : Obligations.StepCompletesFromEveryAlignedState := by
  unfold Obligations.StepCompletesFromEveryAlignedState
  intro s aligned
  rw [step_of_aligned (s.aligned_iff.mp aligned)]
  exact exec_completes_aligned _ aligned

/-! Register 0 where it is hardwired (R149). -/

section
variable {c : Config} (hardwired : c.zeroRegHardwired = true)
include hardwired

theorem State.readReg_zero_of_hardwired (s : State) : s.readReg 0 c = 0x00000000#32 :=
  if_pos ⟨hardwired, rfl⟩

/-- A write of register 0 is suppressed, and a write of another register stores elsewhere. -/
theorem State.writeReg_regs_zero_of_hardwired (s : State) (i : RegIdx) (v : Word) :
    (s.writeReg i v c).regs[0] = s.regs[0] := by
  unfold State.writeReg
  by_cases isZero : i = 0
  · rw [if_pos ⟨hardwired, isZero⟩]
  · have val_ne : i.val ≠ 0 := Fin.val_ne_of_ne isZero
    rw [if_neg (fun h => isZero h.2)]
    exact Vector.getElem_set_ne i.isLt _ val_ne

theorem execWith_regs_zero_of_hardwired {i : Instr} {s t : State}
    (h : execWith c i s = .next t) : t.regs[0] = s.regs[0] := by
  cases i with
  | lw rt rs imm16 =>
    rw [execLw_eq_next h]
    exact s.writeReg_regs_zero_of_hardwired hardwired rt _
  | sw rt rs imm16 => rw [execSw_eq_next h]
  | add rd | sub rd | and rd | or rd | slt rd =>
    cases h
    exact s.writeReg_regs_zero_of_hardwired hardwired rd _
  | rtypeUndef rd rs rt funct =>
    cases h
    exact s.countDraw.writeReg_regs_zero_of_hardwired hardwired rd _
  | beq | j | unrec =>
    cases h
    rfl

end

/-- Settles O46: with the parameter set, the read is 0 by definition and the storage is kept by
`execWith_regs_zero_of_hardwired`; without it, a write reads back by the law of `writeReg`. -/
theorem hardwiredRegisterZeroIsNeverWritten : Obligations.HardwiredRegisterZeroIsNeverWritten := by
  unfold Obligations.HardwiredRegisterZeroIsNeverWritten
  refine ⟨fun c s hardwired => s.readReg_zero_of_hardwired hardwired,
    fun c i s t hardwired => execWith_regs_zero_of_hardwired hardwired,
    fun c s r v ordinary => s.readReg_writeReg_same r v c ?_, rfl⟩
  simp [ordinary]

/-! What the datapath stages for each class (R123 to R145). -/

theorem andThen_assoc {α β γ : Type} (o : Result α) (f : α → Result β) (g : β → Result γ) :
    andThen (andThen o f) g = andThen o fun v => andThen (f v) g := by
  cases o <;> rfl

section
variable {w : Word} (s : State) {c : Config}

theorem stage_load (cls : classify (opcodeOf w) c = .load) : stage w s c =
    andThen (loadWord (effectiveAddress (rsOf w) (imm16Of w) s c) s c) fun v =>
      .next ⟨some (rtOf w, v), none, s.pcPlus4, false⟩ := by
  rw [stage, cls]
  exact andThen_assoc (loadWord (effectiveAddress (rsOf w) (imm16Of w) s c) s c) _ _

theorem stage_store (cls : classify (opcodeOf w) c = .store) : stage w s c =
    .next ⟨none, some (effectiveAddress (rsOf w) (imm16Of w) s c, s.readReg (rtOf w) c),
      s.pcPlus4, false⟩ := by
  rw [stage, cls]
  rfl

theorem stage_rtype (cls : classify (opcodeOf w) c = .rtype) : stage w s c =
    .next ⟨some (rdOf w, alu (aluOpOfFunct (functOf w) c) (s.readReg (rsOf w) c)
        (s.readReg (rtOf w) c) (Config.draw32 s.drawCount (functOf w) (s.readReg (rsOf w) c)
        (s.readReg (rtOf w) c)) c), none, s.pcPlus4, aluOpOfFunct (functOf w) c == .undef⟩ := by
  rw [stage, cls]
  rfl

theorem stage_branch (cls : classify (opcodeOf w) c = .branch) : stage w s c =
    .next ⟨none, none,
      if zeroFlag (s.readReg (rsOf w) c - s.readReg (rtOf w) c) then
        branchTarget s.pcPlus4 (imm16Of w) else s.pcPlus4, false⟩ := by
  rw [stage, cls]
  rfl

theorem stage_jump (cls : classify (opcodeOf w) c = .jump) : stage w s c =
    .next ⟨none, none, jumpTarget s.pcPlus4 (jfieldOf w), false⟩ := by
  rw [stage, cls]
  rfl

theorem stage_unrecognized (cls : classify (opcodeOf w) c = .unrecognized) : stage w s c =
    .next ⟨none, none, s.pcPlus4, false⟩ := by
  rw [stage, cls]
  rfl

end

/-! The control signals alone fix the kind of each staged write (R127). -/

section
variable {c : Config} {w : Word} {s : State} {t : Staged} {k : Control}
  (signals : k = controlSignals (classify (opcodeOf w) c)) (staged : stage w s c = .next t)
include signals staged

theorem stage_follows_signals :
    t.regWrite.map Prod.fst =
      (if k.regWriteEn then some (if k.destIsRd then rdOf w else rtOf w) else none) ∧
    t.memWrite.isSome = k.memWriteEn ∧
    (k.isJump = true → t.nextPc = jumpTarget s.pcPlus4 (jfieldOf w)) ∧
    (k.isJump = false → k.isBranch = false → t.nextPc = s.pcPlus4) := by
  subst signals
  cases cls : classify (opcodeOf w) c with
  | load =>
    rw [stage_load s cls, andThen_eq_next] at staged
    obtain ⟨v, -, ht⟩ := staged
    cases ht
    exact ⟨rfl, rfl, nofun, fun _ _ => rfl⟩
  | store =>
    cases (stage_store s cls).symm.trans staged
    exact ⟨rfl, rfl, nofun, fun _ _ => rfl⟩
  | rtype =>
    cases (stage_rtype s cls).symm.trans staged
    exact ⟨rfl, rfl, nofun, fun _ _ => rfl⟩
  | branch =>
    cases (stage_branch s cls).symm.trans staged
    exact ⟨rfl, rfl, nofun, nofun⟩
  | jump =>
    cases (stage_jump s cls).symm.trans staged
    exact ⟨rfl, rfl, fun _ => rfl, nofun⟩
  | unrecognized =>
    cases (stage_unrecognized s cls).symm.trans staged
    exact ⟨rfl, rfl, nofun, fun _ _ => rfl⟩

theorem stage_regWrite_isSome : t.regWrite.isSome = k.regWriteEn := by
  obtain ⟨regWrite, -⟩ := stage_follows_signals signals staged
  rw [← Option.isSome_map (f := Prod.fst), regWrite]
  cases k.regWriteEn <;> rfl

theorem stage_memWrite_isSome : t.memWrite.isSome = k.memWriteEn := by
  obtain ⟨-, memWrite, -⟩ := stage_follows_signals signals staged
  exact memWrite

end

/-- The register-type opcode is classified as such where the opcodes are distinct (R123). -/
theorem classify_opRtype {c : Config} (distinct : c.NumbersDistinct) :
    classify c.opRtype c = .rtype := by
  obtain ⟨-, lw_ne, -, -, sw_ne, -⟩ := distinct.opcodes_ne
  rw [classify, if_neg lw_ne.symm, if_neg sw_ne.symm, if_pos rfl]

/-- Settles O44: equal opcodes give equal signals, which fix the staged writes by
`stage_follows_signals`; a register-type word stages a write of rd by `stage_rtype`, whatever its
function code. -/
theorem controlSignalsDependOnTheOpcodeOnly : Obligations.ControlSignalsDependOnTheOpcodeOnly := by
  unfold Obligations.ControlSignalsDependOnTheOpcodeOnly
  refine ⟨fun c w w' opcode => by rw [opcode], fun c w w' s s' t t' opcode staged staged' => ?_,
    fun c w s t k => stage_follows_signals, fun c s w distinct opcode _ => ?_⟩
  · have signals' : controlSignals (classify (opcodeOf w) c) =
        controlSignals (classify (opcodeOf w') c) := by rw [opcode]
    exact
      ⟨(stage_regWrite_isSome rfl staged).trans (stage_regWrite_isSome signals' staged').symm,
        (stage_memWrite_isSome rfl staged).trans (stage_memWrite_isSome signals' staged').symm⟩
  · have cls : classify (opcodeOf w) c = .rtype := opcode ▸ classify_opRtype distinct
    exact ⟨by rw [cls]; rfl, _, _, stage_rtype s cls, rfl⟩

end Sys2Proof.Machine
end

section
/-! PROOFS. The register-type instructions (41_register_type.md): which words decode to them (R101 to
R103), the frame that every register write shares (R160), subtraction in the ALU (R168); and the
obligations about ADD, AND, OR and the zero flag. -/

namespace Sys2Proof

/-! The decoder on a word that matches a register-type row. -/

section
variable {c : Config} {w : Word}

/-- Matching a register-type row fixes the opcode and the function code, and no other field. -/
theorem fields_of_matches_encodeRFormat {op funct : BitVec 6}
    (matched : w &&& 0xFC00003F#32 = encodeRFormat op 0 0 0 funct) :
    opcodeOf w = op ∧ functOf w = funct := by
  rw [← opcodeOf_and w 0xFC00003F#32 (by decide), ← functOf_and w 0xFC00003F#32 (by decide), matched]
  exact ⟨opcodeOf_encodeRFormat .., functOf_encodeRFormat ..⟩

/-- The register-type opcode reaches the second half of the decoder where the opcodes are distinct. -/
theorem decode_of_opRtype (distinct : c.NumbersDistinct) (opcode : opcodeOf w = c.opRtype) :
    decode w c = decodeRegisterType w c := by
  obtain ⟨-, lw_ne, -, -, sw_ne, -, -, ne_beq, ne_j, -⟩ := distinct.opcodes_ne
  rw [decode, opcode, if_neg lw_ne.symm, if_neg sw_ne.symm, if_neg ne_beq, if_neg ne_j, if_pos rfl]

theorem decode_of_matches_add (distinct : c.NumbersDistinct)
    (matched : w &&& 0xFC00003F#32 = encodeRFormat c.opRtype 0 0 0 fnAdd) :
    decode w c = .add (rdOf w) (rsOf w) (rtOf w) := by
  obtain ⟨opcode, funct⟩ := fields_of_matches_encodeRFormat matched
  rw [decode_of_opRtype distinct opcode, decodeRegisterType, if_pos funct]

theorem decode_of_matches_and (distinct : c.NumbersDistinct)
    (matched : w &&& 0xFC00003F#32 = encodeRFormat c.opRtype 0 0 0 c.fnAnd) :
    decode w c = .and (rdOf w) (rsOf w) (rtOf w) := by
  obtain ⟨opcode, funct⟩ := fields_of_matches_encodeRFormat matched
  obtain ⟨-, add_ne, -, -, sub_ne, -⟩ := distinct.functionCodes_ne
  rw [decode_of_opRtype distinct opcode, decodeRegisterType, funct, if_neg add_ne.symm,
    if_neg sub_ne.symm, if_pos rfl]

theorem decode_of_matches_or (distinct : c.NumbersDistinct)
    (matched : w &&& 0xFC00003F#32 = encodeRFormat c.opRtype 0 0 0 c.fnOr) :
    decode w c = .or (rdOf w) (rsOf w) (rtOf w) := by
  obtain ⟨opcode, funct⟩ := fields_of_matches_encodeRFormat matched
  obtain ⟨-, -, add_ne, -, -, sub_ne, -, and_ne, -⟩ := distinct.functionCodes_ne
  rw [decode_of_opRtype distinct opcode, decodeRegisterType, funct, if_neg add_ne.symm,
    if_neg sub_ne.symm, if_neg and_ne.symm, if_pos rfl]

end

end Sys2Proof

namespace Sys2Proof.Machine

/-- The frame of a register write: the other registers, both memories and the draw count stay. -/
theorem writeReg_advance_frame (s : State) (rd : RegIdx) (v : Word) :
    SameRegsBut (some rd) s (s.writeReg rd v).advance ∧
      SameDataBut none s (s.writeReg rd v).advance ∧ SameProgram s (s.writeReg rd v).advance ∧
      (s.writeReg rd v).advance.drawCount = s.drawCount := by
  refine ⟨fun r other => ?_, fun k _ => ?_, fun k => ?_, ?_⟩
  · have ne : r ≠ rd := fun same => other (congrArg some same.symm)
    rw [State.readReg_advance, State.readReg_writeReg_other s rd r v _ ne]
  · rw [State.advance_dmem, State.writeReg_dmem]
  · rw [State.advance_imem, State.writeReg_imem]
  · rw [State.advance_drawCount, State.writeReg_drawCount]

/-! Subtraction in the ALU (R168). The draw and the configuration play no part in it. -/

section
variable (a b draw : Word) (c : Config)

theorem alu_sub : alu .sub a b draw c = a - b := rfl

theorem alu_sub_toNat : (alu .sub a b draw c).toNat = (2 ^ 32 + a.toNat - b.toNat) % 2 ^ 32 := by
  rw [alu_sub, BitVec.toNat_sub]
  omega

theorem alu_sub_eq_add_not_add_one : alu .sub a b draw c = a + ~~~b + 1#32 := by
  rw [alu_sub, BitVec.sub_eq_add_neg, BitVec.neg_eq_not_add, BitVec.add_assoc]

end

/-- BEQ selects its next pc by the zero flag of the ALU's subtraction (43_control_transfer.md R190). -/
theorem exec_beq_zeroFlag (rs rt : RegIdx) (imm16 : BitVec 16) (s : State) (draw : Word) :
    exec (.beq rs rt imm16) s =
      .next (s.setPc (if zeroFlag (alu .sub (s.readReg rs) (s.readReg rt) draw)
        then branchTarget s.pcPlus4 imm16 else s.pcPlus4)) := rfl

/-- Settles O20: the row's match by `decode_of_matches_add`; the written value is read back whichever
registers coincide, and the rest is the frame of a register write. -/
theorem addWritesTheSum : Obligations.AddWritesTheSum := by
  unfold Obligations.AddWritesTheSum
  refine ⟨fun c w => decode_of_matches_add, rfl, fun rd rs rt s =>
    ⟨_, exec_add rd rs rt s, State.writeReg_advance_pc .., ?_, writeReg_advance_frame ..⟩⟩
  rw [State.readReg_writeReg_advance, BitVec.toNat_add]

/-- Settles O22: as for ADD, the value bit by bit; with one operand twice it is a copy. -/
theorem andWritesTheBitwiseAnd : Obligations.AndWritesTheBitwiseAnd := by
  unfold Obligations.AndWritesTheBitwiseAnd
  refine ⟨fun c w => decode_of_matches_and, fun rd rs rt s =>
    ⟨_, exec_and rd rs rt s, State.writeReg_advance_pc .., fun i => ?_, writeReg_advance_frame ..⟩,
    fun rd rs s => ⟨_, exec_and rd rs rs s, ?_⟩⟩
  · rw [State.readReg_writeReg_advance, BitVec.getLsbD_and]
  · rw [State.readReg_writeReg_advance, BitVec.and_self]

/-- Settles O23: as for AND. -/
theorem orWritesTheBitwiseOr : Obligations.OrWritesTheBitwiseOr := by
  unfold Obligations.OrWritesTheBitwiseOr
  refine ⟨fun c w => decode_of_matches_or, fun rd rs rt s =>
    ⟨_, exec_or rd rs rt s, State.writeReg_advance_pc .., fun i => ?_, writeReg_advance_frame ..⟩,
    fun rd rs s => ⟨_, exec_or rd rs rs s, ?_⟩⟩
  · rw [State.readReg_writeReg_advance, BitVec.getLsbD_or]
  · rw [State.readReg_writeReg_advance, BitVec.or_self]

/-- Settles O27: the forms of the difference by the lemmas of `alu .sub`, its zero flag by
`zeroFlag_sub_iff`, and BEQ by `exec_beq_zeroFlag`. -/
theorem zeroOfTheDifferenceIsEquality : Obligations.ZeroOfTheDifferenceIsEquality := by
  unfold Obligations.ZeroOfTheDifferenceIsEquality
  refine ⟨fun c a b draw =>
      ⟨alu_sub_toNat a b draw c, alu_sub_eq_add_not_add_one a b draw c, zeroFlag_sub_iff a b⟩,
    fun s rs rt imm16 draw => ⟨_, exec_beq_zeroFlag rs rt imm16 s draw, State.setPc_pc ..⟩,
    fun draw => ?_⟩
  simp only [alu_sub]
  decide

end Sys2Proof.Machine
end

section
/-! PROOFS. The load and store instructions (42_load_store.md): which words decode to them (R93, R101 to
R103), the frame of a data word write, and the obligations about LW and SW. -/

namespace Sys2Proof

section
variable {c : Config} {w : Word}

/-- Matching an immediate-format row fixes the opcode, and no other field. -/
theorem opcodeOf_of_matches_encodeIFormat {op : BitVec 6}
    (matched : w &&& 0xFC000000#32 = encodeIFormat op 0 0 0#16) : opcodeOf w = op := by
  rw [← opcodeOf_and w 0xFC000000#32 (by decide), matched]
  exact opcodeOf_encodeIFormat ..

/-- LW is the decoder's first row, so no distinctness is needed. -/
theorem decode_of_matches_lw (matched : w &&& 0xFC000000#32 = encodeIFormat c.opLw 0 0 0#16) :
    decode w c = .lw (rtOf w) (rsOf w) (imm16Of w) := by
  rw [decode, if_pos (opcodeOf_of_matches_encodeIFormat matched)]

theorem decode_of_matches_sw (distinct : c.NumbersDistinct)
    (matched : w &&& 0xFC000000#32 = encodeIFormat c.opSw 0 0 0#16) :
    decode w c = .sw (rtOf w) (rsOf w) (imm16Of w) := by
  obtain ⟨lw_ne, -⟩ := distinct.opcodes_ne
  rw [decode, opcodeOf_of_matches_encodeIFormat matched, if_neg lw_ne.symm, if_pos rfl]

end

end Sys2Proof

namespace Sys2Proof.Machine

section
variable (s : State) (a v : Word) (canonical : s.dmem.wf)
include canonical

/-- The stored word is read back at the word its address selects. -/
theorem State.setData_advance_dmem_read :
    (s.setData a v).advance.dmem.read (wordIndex a) = v := by
  rw [State.advance_dmem, State.setData_dmem, Memory.read_write_same canonical]

/-- The frame of a data word write: the registers, the other data words, the instruction memory and
the draw count stay. -/
theorem setData_advance_frame :
    SameRegsBut none s (s.setData a v).advance ∧
      SameDataBut (some (wordIndex a)) s (s.setData a v).advance ∧
      SameProgram s (s.setData a v).advance ∧
      (s.setData a v).advance.drawCount = s.drawCount := by
  refine ⟨fun r _ => ?_, fun k other => ?_, fun k => ?_, ?_⟩
  · rw [State.readReg_advance, State.readReg_setData]
  · have ne : k ≠ wordIndex a := fun same => other (congrArg some same.symm)
    rw [State.advance_dmem, State.setData_dmem, Memory.read_write_other canonical v ne]
  · rw [State.advance_imem, State.setData_imem]
  · rw [State.advance_drawCount, State.setData_drawCount]

end

/-- Settles O29: the row's match by `decode_of_matches_lw`, the signals by definition; the loaded word
is read back whether or not `rt` is the base, and the rest is the frame of a register write. -/
theorem lwLoadsTheAddressedWord : Obligations.LwLoadsTheAddressedWord := by
  unfold Obligations.LwLoadsTheAddressedWord
  exact ⟨fun c w _ => decode_of_matches_lw, rfl, rfl, rfl, rfl, rfl, rfl, fun rt rs imm16 s =>
    ⟨_, exec_lw rs rt imm16 s, State.writeReg_advance_pc .., State.readReg_writeReg_advance ..,
      writeReg_advance_frame ..⟩⟩

/-- Settles O30: the row's match by `decode_of_matches_sw`, the signals by definition; the stored word
is read back from the canonical memory, and the rest is the frame of a data word write. -/
theorem swStoresToTheAddressedWord : Obligations.SwStoresToTheAddressedWord := by
  unfold Obligations.SwStoresToTheAddressedWord
  exact ⟨fun c w => decode_of_matches_sw, rfl, rfl, fun rt rs imm16 s canonical =>
    ⟨_, exec_sw rs rt imm16 s, State.advance_pc _,
      s.setData_advance_dmem_read _ _ canonical, rfl, setData_advance_frame s _ _ canonical⟩⟩

end Sys2Proof.Machine
end

section
/-! PROOFS. Control transfer (43_control_transfer.md): which words decode to BEQ and J (R93, R94,
R101 to R103), the frame of a step that sets only the pc, the branch target as a signed sum and the
assembler's inverse of it (R192); and the obligations about BEQ and J. -/

namespace Sys2Proof

/-! The decoder on a word that matches the row of BEQ or of J. -/

section
variable {c : Config} {w : Word}

theorem decode_of_matches_beq (distinct : c.NumbersDistinct)
    (matched : w &&& 0xFC000000#32 = encodeIFormat c.opBeq 0 0 0#16) :
    decode w c = .beq (rsOf w) (rtOf w) (imm16Of w) := by
  obtain ⟨-, -, lw_ne, -, -, sw_ne, -⟩ := distinct.opcodes_ne
  rw [decode, opcodeOf_of_matches_encodeIFormat matched, if_neg lw_ne.symm, if_neg sw_ne.symm,
    if_pos rfl]

/-- Matching the jump-format row fixes the opcode, and no other field. -/
theorem opcodeOf_of_matches_encodeJFormat {op : BitVec 6}
    (matched : w &&& 0xFC000000#32 = encodeJFormat op 0#26) : opcodeOf w = op := by
  rw [← opcodeOf_and w 0xFC000000#32 (by decide), matched]
  exact opcodeOf_encodeJFormat ..

theorem decode_of_matches_j (distinct : c.NumbersDistinct)
    (matched : w &&& 0xFC000000#32 = encodeJFormat c.opJ 0#26) :
    decode w c = .j (jfieldOf w) := by
  obtain ⟨-, -, -, lw_ne, -, -, sw_ne, -, -, beq_ne⟩ := distinct.opcodes_ne
  rw [decode, opcodeOf_of_matches_encodeJFormat matched, if_neg lw_ne.symm, if_neg sw_ne.symm,
    if_neg beq_ne.symm, if_pos rfl]

end

/-! The branch offset as a signed number (R192). -/

theorem imm16_toInt_bounds (imm16 : BitVec 16) : -32768 ≤ imm16.toInt ∧ imm16.toInt ≤ 32767 :=
  ⟨imm16.le_toInt, Int.le_of_lt_add_one imm16.toInt_lt⟩

/-- Shifting the extended offset by two bits multiplies its signed value by 4. -/
theorem sext32_shiftLeft_two (imm16 : BitVec 16) :
    sext32 imm16 <<< 2 = BitVec.ofInt 32 (4 * imm16.toInt) := by
  rw [← sext32_toInt, BitVec.ofInt_mul, BitVec.ofInt_toInt]
  exact (BitVec.twoPow_mul_eq_shiftLeft (sext32 imm16) 2).symm

/-- A difference of two addresses, read as a signed word, is their distance where that distance fits
in a signed word. -/
theorem sub_toInt_of_distance_in_range {a b : Word} {distance : Int}
    (isDistance : distance = (a.toNat : Int) - (b.toNat : Int))
    (low : -2 ^ 31 ≤ distance) (high : distance < 2 ^ 31) : (a - b).toInt = distance := by
  rw [BitVec.toInt_sub, BitVec.toInt_eq_toNat_bmod a, BitVec.toInt_eq_toNat_bmod b,
    Int.bmod_sub_bmod, Int.sub_bmod_bmod, ← isDistance]
  exact Int.bmod_eq_of_le low high

/-- Where the distance does not wrap, the assembler answers the distance divided by 4. -/
theorem assembleBranchOffset_of_distance_in_range {address label : Word} {distance : Int}
    (isDistance : distance = (label.toNat : Int) - ((address + 4#32).toNat : Int))
    (low : -131072 ≤ distance) (high : distance ≤ 131068) (divides : distance % 4 = 0) :
    assembleBranchOffset address label = some (BitVec.ofInt 16 (distance / 4)) := by
  have signed : (label - (address + 4#32)).toInt = distance :=
    sub_toInt_of_distance_in_range isDistance (by omega) (by omega)
  have inRange : distance % 4 = 0 ∧ -32768 ≤ distance / 4 ∧ distance / 4 ≤ 32767 := by omega
  simp only [assembleBranchOffset, signed, if_pos inRange]

end Sys2Proof

namespace Sys2Proof.Machine

/-- The branch target as a sum of numbers, taken modulo 2^32 once (R192). -/
theorem branchTarget_eq_ofInt (pc : Word) (imm16 : BitVec 16) :
    branchTarget (pc + 4#32) imm16 = BitVec.ofInt 32 ((pc.toNat : Int) + 4 + 4 * imm16.toInt) := by
  rw [branchTarget, sext32_shiftLeft_two, BitVec.add_comm, BitVec.ofInt_add, BitVec.ofInt_add,
    BitVec.ofInt_natCast, BitVec.ofNat_toNat, BitVec.setWidth_eq, BitVec.ofInt_ofNat]

/-- The frame of a step that sets only the pc: registers, both memories and the draw count stay. -/
theorem setPc_frame (s : State) (target : Word) :
    SameRegsBut none s (s.setPc target) ∧ SameDataBut none s (s.setPc target) ∧
      SameProgram s (s.setPc target) ∧ (s.setPc target).drawCount = s.drawCount :=
  ⟨fun _ _ => State.readReg_setPc .., fun _ _ => rfl, fun _ => rfl, State.setPc_drawCount ..⟩

theorem exec_beq_taken {rs rt : RegIdx} {s : State} (imm16 : BitVec 16)
    (equal : s.readReg rs = s.readReg rt) :
    exec (.beq rs rt imm16) s = .next (s.setPc (branchTarget (s.pc + 4#32) imm16)) := by
  rw [exec_beq, if_pos equal]

/-- Settles O38: the next pc is `branchTarget`, as a sum of numbers by `branchTarget_eq_ofInt` and
aligned by `branchTarget_aligned`; a distance in range is the assembler's signed difference, and its
quarter fits in 16 bits. -/
theorem branchTargetIsFourTimesTheOffset : Obligations.BranchTargetIsFourTimesTheOffset := by
  unfold Obligations.BranchTargetIsFourTimesTheOffset
  refine ⟨fun s rs rt imm16 equal => ⟨_, exec_beq_taken imm16 equal, ?_, fun aligned => ?_⟩,
    fun imm16 => ?_, fun address label distance isDistance low high divides =>
      ⟨_, assembleBranchOffset_of_distance_in_range isDistance low high divides, ?_⟩⟩
  · exact branchTarget_eq_ofInt s.pc imm16
  · exact branchTarget_aligned (add_four_aligned aligned) imm16
  · have bounds := imm16_toInt_bounds imm16
    omega
  · exact BitVec.toInt_ofInt_eq_self (by decide) (by omega) (by omega)

/-- Settles O35: the row's match by `decode_of_matches_beq`, signals and ALU class by definition;
the next pc by `exec_beq`, and the rest is the frame of a step that sets only the pc. -/
theorem beqBranchesOnEquality : Obligations.BeqBranchesOnEquality := by
  unfold Obligations.BeqBranchesOnEquality
  refine ⟨fun c w => decode_of_matches_beq, rfl, rfl, fun rs rt imm16 s =>
    ⟨_, exec_beq rs rt imm16 s, ?_, setPc_frame ..⟩⟩
  rw [State.setPc_pc, branchTarget, BitVec.add_assoc]

/-- Settles O36: the row's match by `decode_of_matches_j`, the signals by definition; the next pc is
`jumpTarget`, and the rest is the frame of a step that sets only the pc. -/
theorem jumpGoesToTheFieldInItsRegion : Obligations.JumpGoesToTheFieldInItsRegion := by
  unfold Obligations.JumpGoesToTheFieldInItsRegion
  exact ⟨fun c w => decode_of_matches_j, rfl, fun jfield s =>
    ⟨_, exec_j jfield s, rfl, setPc_frame ..⟩⟩

end Sys2Proof.Machine
end

section
/-! PROOFS. Unrecognized opcodes (44_unrecognized.md): an opcode that is none of the five reaches the
last branch of the decoder (R102) and of the classification (R123); and the obligation about UNREC. -/

namespace Sys2Proof

/-- An opcode outside the five, number by number. -/
theorem Config.not_mem_opcodes_iff {c : Config} {opcode : BitVec 6} :
    opcode ∉ c.opcodes ↔ opcode ≠ c.opLw ∧ opcode ≠ c.opSw ∧ opcode ≠ c.opRtype ∧
      opcode ≠ c.opBeq ∧ opcode ≠ c.opJ := by
  simp only [Config.opcodes, List.mem_cons, List.not_mem_nil, or_false, not_or, ne_eq]

theorem decode_of_unrecognized {c : Config} {w : Word} (unrecognized : opcodeOf w ∉ c.opcodes) :
    decode w c = .unrec w := by
  obtain ⟨ne_lw, ne_sw, ne_rtype, ne_beq, ne_j⟩ := Config.not_mem_opcodes_iff.mp unrecognized
  rw [decode, if_neg ne_lw, if_neg ne_sw, if_neg ne_beq, if_neg ne_j, if_neg ne_rtype]

end Sys2Proof

namespace Sys2Proof.Machine

theorem classify_of_unrecognized {c : Config} {opcode : BitVec 6}
    (unrecognized : opcode ∉ c.opcodes) : classify opcode c = .unrecognized := by
  obtain ⟨ne_lw, ne_sw, ne_rtype, ne_beq, ne_j⟩ := Config.not_mem_opcodes_iff.mp unrecognized
  rw [classify, if_neg ne_lw, if_neg ne_sw, if_neg ne_rtype, if_neg ne_beq, if_neg ne_j]

/-- Settles O39: the word by `decode_of_unrecognized`, the signals by its class; the step only
advances, so the rest is the frame of a step that sets only the pc. -/
theorem unrecognizedOpcodeOnlyAdvances : Obligations.UnrecognizedOpcodeOnlyAdvances := by
  unfold Obligations.UnrecognizedOpcodeOnlyAdvances
  refine ⟨fun c w unrecognized => ⟨decode_of_unrecognized unrecognized, ?_⟩, fun word s =>
    ⟨_, exec_unrec word s, State.advance_pc s, setPc_frame s _⟩⟩
  rw [classify_of_unrecognized unrecognized]
  rfl

end Sys2Proof.Machine
end

section
/-! PROOFS. The decoder and the encoder (30_encoding.md R92 to R94, R100 to R107): which branch of
the decoder a word takes, by its opcode and function code; a word as the sum of its fields, and as
what a mask keeps of it; the opcode table (R103); and the obligations about decoding and encoding.
-/

namespace Sys2Proof

/-- The immediate field of a sign-extended half is that half (00_scope.md R12). -/
theorem imm16Of_sext32 (h : BitVec 16) : imm16Of (sext32 h) = h := by
  apply BitVec.eq_of_getLsbD_eq
  intro i hi
  rw [imm16Of, extractField_getLsbD, Nat.zero_add, sext32_getLsbD_of_lt h hi, decide_eq_true hi,
    Bool.true_and]

/-! The decoder by the opcode (R102), under distinct numbers. -/

section
variable {c : Config} {w : Word}

theorem decode_of_opLw (opcode : opcodeOf w = c.opLw) :
    decode w c = .lw (rtOf w) (rsOf w) (imm16Of w) := by
  rw [decode, if_pos opcode]

theorem decode_of_opSw (distinct : c.NumbersDistinct) (opcode : opcodeOf w = c.opSw) :
    decode w c = .sw (rtOf w) (rsOf w) (imm16Of w) := by
  obtain ⟨lw_ne, -⟩ := distinct.opcodes_ne
  rw [decode, opcode, if_neg lw_ne.symm, if_pos rfl]

theorem decode_of_opBeq (distinct : c.NumbersDistinct) (opcode : opcodeOf w = c.opBeq) :
    decode w c = .beq (rsOf w) (rtOf w) (imm16Of w) := by
  obtain ⟨-, -, lw_ne, -, -, sw_ne, -⟩ := distinct.opcodes_ne
  rw [decode, opcode, if_neg lw_ne.symm, if_neg sw_ne.symm, if_pos rfl]

theorem decode_of_opJ (distinct : c.NumbersDistinct) (opcode : opcodeOf w = c.opJ) :
    decode w c = .j (jfieldOf w) := by
  obtain ⟨-, -, -, lw_ne, -, -, sw_ne, -, -, beq_ne⟩ := distinct.opcodes_ne
  rw [decode, opcode, if_neg lw_ne.symm, if_neg sw_ne.symm, if_neg beq_ne.symm, if_pos rfl]

/-! The register-type half by the function code (R101). -/

theorem decodeRegisterType_of_fnAdd (funct : functOf w = fnAdd) :
    decodeRegisterType w c = .add (rdOf w) (rsOf w) (rtOf w) := by
  rw [decodeRegisterType, if_pos funct]

theorem decodeRegisterType_of_fnSub (distinct : c.NumbersDistinct) (funct : functOf w = c.fnSub) :
    decodeRegisterType w c = .sub (rdOf w) (rsOf w) (rtOf w) := by
  obtain ⟨add_ne, -⟩ := distinct.functionCodes_ne
  rw [decodeRegisterType, funct, if_neg add_ne.symm, if_pos rfl]

theorem decodeRegisterType_of_fnAnd (distinct : c.NumbersDistinct) (funct : functOf w = c.fnAnd) :
    decodeRegisterType w c = .and (rdOf w) (rsOf w) (rtOf w) := by
  obtain ⟨-, add_ne, -, -, sub_ne, -⟩ := distinct.functionCodes_ne
  rw [decodeRegisterType, funct, if_neg add_ne.symm, if_neg sub_ne.symm, if_pos rfl]

theorem decodeRegisterType_of_fnOr (distinct : c.NumbersDistinct) (funct : functOf w = c.fnOr) :
    decodeRegisterType w c = .or (rdOf w) (rsOf w) (rtOf w) := by
  obtain ⟨-, -, add_ne, -, -, sub_ne, -, and_ne, -⟩ := distinct.functionCodes_ne
  rw [decodeRegisterType, funct, if_neg add_ne.symm, if_neg sub_ne.symm, if_neg and_ne.symm,
    if_pos rfl]

theorem decodeRegisterType_of_fnSlt (distinct : c.NumbersDistinct) (funct : functOf w = c.fnSlt) :
    decodeRegisterType w c = .slt (rdOf w) (rsOf w) (rtOf w) := by
  obtain ⟨-, -, -, add_ne, -, -, sub_ne, -, and_ne, or_ne⟩ := distinct.functionCodes_ne
  rw [decodeRegisterType, funct, if_neg add_ne.symm, if_neg sub_ne.symm, if_neg and_ne.symm,
    if_neg or_ne.symm, if_pos rfl]

theorem decode_of_matches_sub (distinct : c.NumbersDistinct)
    (matched : w &&& 0xFC00003F#32 = encodeRFormat c.opRtype 0 0 0 c.fnSub) :
    decode w c = .sub (rdOf w) (rsOf w) (rtOf w) := by
  obtain ⟨opcode, funct⟩ := fields_of_matches_encodeRFormat matched
  rw [decode_of_opRtype distinct opcode, decodeRegisterType_of_fnSub distinct funct]

theorem decode_of_matches_slt (distinct : c.NumbersDistinct)
    (matched : w &&& 0xFC00003F#32 = encodeRFormat c.opRtype 0 0 0 c.fnSlt) :
    decode w c = .slt (rdOf w) (rsOf w) (rtOf w) := by
  obtain ⟨opcode, funct⟩ := fields_of_matches_encodeRFormat matched
  rw [decode_of_opRtype distinct opcode, decodeRegisterType_of_fnSlt distinct funct]

/-- A function code outside the five, number by number. -/
theorem Config.not_mem_functionCodes_iff {funct : BitVec 6} :
    funct ∉ c.functionCodes ↔ funct ≠ fnAdd ∧ funct ≠ c.fnSub ∧ funct ≠ c.fnAnd ∧
      funct ≠ c.fnOr ∧ funct ≠ c.fnSlt := by
  simp only [Config.functionCodes, List.mem_cons, List.not_mem_nil, or_false, not_or, ne_eq]

theorem decodeRegisterType_of_unmatched (unmatched : functOf w ∉ c.functionCodes) :
    decodeRegisterType w c = .rtypeUndef (rdOf w) (rsOf w) (rtOf w) (functOf w) := by
  obtain ⟨ne_add, ne_sub, ne_and, ne_or, ne_slt⟩ := Config.not_mem_functionCodes_iff.mp unmatched
  rw [decodeRegisterType, if_neg ne_add, if_neg ne_sub, if_neg ne_and, if_neg ne_or, if_neg ne_slt]

/-! Every branch of the decoder, whatever the numbers (R102, R105). -/

variable (w c)

theorem decode_cases :
    (opcodeOf w = c.opLw ∧ decode w c = .lw (rtOf w) (rsOf w) (imm16Of w)) ∨
    (opcodeOf w = c.opSw ∧ decode w c = .sw (rtOf w) (rsOf w) (imm16Of w)) ∨
    (opcodeOf w = c.opBeq ∧ decode w c = .beq (rsOf w) (rtOf w) (imm16Of w)) ∨
    (opcodeOf w = c.opJ ∧ decode w c = .j (jfieldOf w)) ∨
    (opcodeOf w = c.opRtype ∧ decode w c = decodeRegisterType w c) ∨
    (opcodeOf w ∉ c.opcodes ∧ decode w c = .unrec w) := by
  unfold decode
  split_ifs with lw sw beq j rtype
  · exact .inl ⟨lw, rfl⟩
  · exact .inr (.inl ⟨sw, rfl⟩)
  · exact .inr (.inr (.inl ⟨beq, rfl⟩))
  · exact .inr (.inr (.inr (.inl ⟨j, rfl⟩)))
  · exact .inr (.inr (.inr (.inr (.inl ⟨rtype, rfl⟩))))
  · exact .inr (.inr (.inr (.inr (.inr
      ⟨Config.not_mem_opcodes_iff.mpr ⟨lw, sw, rtype, beq, j⟩, rfl⟩))))

theorem decodeRegisterType_cases :
    (functOf w = fnAdd ∧ decodeRegisterType w c = .add (rdOf w) (rsOf w) (rtOf w)) ∨
    (functOf w = c.fnSub ∧ decodeRegisterType w c = .sub (rdOf w) (rsOf w) (rtOf w)) ∨
    (functOf w = c.fnAnd ∧ decodeRegisterType w c = .and (rdOf w) (rsOf w) (rtOf w)) ∨
    (functOf w = c.fnOr ∧ decodeRegisterType w c = .or (rdOf w) (rsOf w) (rtOf w)) ∨
    (functOf w = c.fnSlt ∧ decodeRegisterType w c = .slt (rdOf w) (rsOf w) (rtOf w)) ∨
    (functOf w ∉ c.functionCodes ∧
      decodeRegisterType w c = .rtypeUndef (rdOf w) (rsOf w) (rtOf w) (functOf w)) := by
  unfold decodeRegisterType
  split_ifs with add sub and or slt
  · exact .inl ⟨add, rfl⟩
  · exact .inr (.inl ⟨sub, rfl⟩)
  · exact .inr (.inr (.inl ⟨and, rfl⟩))
  · exact .inr (.inr (.inr (.inl ⟨or, rfl⟩)))
  · exact .inr (.inr (.inr (.inr (.inl ⟨slt, rfl⟩))))
  · exact .inr (.inr (.inr (.inr (.inr
      ⟨Config.not_mem_functionCodes_iff.mpr ⟨add, sub, and, or, slt⟩, rfl⟩))))

end

/-! Well-formed terms are the range of the decoder (R106, R107). -/

section
variable (c : Config)

theorem wellFormed_rtypeUndef_iff {rd rs rt : RegIdx} {funct : BitVec 6} :
    (Instr.rtypeUndef rd rs rt funct).wellFormed c = true ↔ funct ∉ c.functionCodes := by
  simp [Instr.wellFormed]

theorem wellFormed_unrec_iff {w : Word} :
    (Instr.unrec w).wellFormed c = true ↔ opcodeOf w ∉ c.opcodes := by
  simp [Instr.wellFormed]

theorem decodeRegisterType_wellFormed (w : Word) :
    (decodeRegisterType w c).wellFormed c = true := by
  rcases decodeRegisterType_cases c w with
    ⟨-, eq⟩ | ⟨-, eq⟩ | ⟨-, eq⟩ | ⟨-, eq⟩ | ⟨-, eq⟩ | ⟨unmatched, eq⟩ <;> rw [eq]
  · rfl
  · rfl
  · rfl
  · rfl
  · rfl
  · exact (wellFormed_rtypeUndef_iff c).mpr unmatched

theorem decode_wellFormed (w : Word) : (decode w c).wellFormed c = true := by
  rcases decode_cases c w with
    ⟨-, eq⟩ | ⟨-, eq⟩ | ⟨-, eq⟩ | ⟨-, eq⟩ | ⟨-, eq⟩ | ⟨unrecognized, eq⟩ <;> rw [eq]
  · rfl
  · rfl
  · rfl
  · rfl
  · exact decodeRegisterType_wellFormed c w
  · exact (wellFormed_unrec_iff c).mpr unrecognized

end

/-! The round trip from an instruction. -/

section
variable {c : Config} (distinct : c.NumbersDistinct)
include distinct

/-- Each assembled word is decoded by its opcode and function code, and the fields are read back. -/
theorem decode_encode {i : Instr} (wellFormed : i.wellFormed c = true) :
    decode (encode i c) c = i := by
  cases i with
  | lw rt rs imm16 => simp [encode, decode_of_opLw]
  | sw rt rs imm16 => simp [encode, decode_of_opSw distinct]
  | beq rs rt imm16 => simp [encode, decode_of_opBeq distinct]
  | j jfield => simp [encode, decode_of_opJ distinct]
  | add rd rs rt =>
    simp [encode, decode_of_opRtype distinct, decodeRegisterType_of_fnAdd]
  | sub rd rs rt =>
    simp [encode, decode_of_opRtype distinct, decodeRegisterType_of_fnSub distinct]
  | and rd rs rt =>
    simp [encode, decode_of_opRtype distinct, decodeRegisterType_of_fnAnd distinct]
  | or rd rs rt =>
    simp [encode, decode_of_opRtype distinct, decodeRegisterType_of_fnOr distinct]
  | slt rd rs rt =>
    simp [encode, decode_of_opRtype distinct, decodeRegisterType_of_fnSlt distinct]
  | rtypeUndef rd rs rt funct =>
    have unmatched := (wellFormed_rtypeUndef_iff c).mp wellFormed
    simp [encode, decode_of_opRtype distinct, decodeRegisterType_of_unmatched, unmatched]
  | unrec word => exact decode_of_unrecognized ((wellFormed_unrec_iff c).mp wellFormed)

end

/-! The round trip from a word. -/

section
variable (w : Word)

/-- What a mask keeps that has every bit from `n` up and every bit below `m`. -/
theorem and_highAndLowMask_toNat {n m : Nat} (le : m ≤ n) (lt : m < 32) :
    (w &&& (BitVec.allOnes 32 <<< n ||| BitVec.ofNat 32 (2 ^ m - 1))).toNat =
      w.toNat / 2 ^ n * 2 ^ n + w.toNat % 2 ^ m := by
  have high : w &&& BitVec.allOnes 32 <<< n = w >>> n <<< n := by
    rw [BitVec.shiftLeft_ushiftRight]
  have lowMask : 2 ^ m - 1 < 2 ^ 32 :=
    (Nat.sub_le _ _).trans_lt (Nat.pow_lt_pow_right (by decide) lt)
  have highFits : w.toNat / 2 ^ n * 2 ^ n < 2 ^ 32 := (Nat.div_mul_le_self _ _).trans_lt w.isLt
  have lowFits : w.toNat % 2 ^ m < 2 ^ n :=
    (Nat.mod_lt _ (Nat.two_pow_pos m)).trans_le (Nat.pow_le_pow_right (by decide) le)
  rw [BitVec.and_or_distrib_left, high, BitVec.toNat_or, BitVec.toNat_shiftLeft,
    BitVec.toNat_ushiftRight, BitVec.toNat_and, BitVec.toNat_ofNat, Nat.mod_eq_of_lt lowMask,
    Nat.and_two_pow_sub_one_eq_mod, Nat.shiftRight_eq_div_pow, Nat.shiftLeft_eq,
    Nat.mod_eq_of_lt highFits, ← Nat.shiftLeft_eq, Nat.shiftLeft_add_eq_or_of_lt lowFits]

theorem encodeIFormat_fields :
    encodeIFormat (opcodeOf w) (rsOf w) (rtOf w) (imm16Of w) = w := by
  apply BitVec.eq_of_toNat_eq
  rw [encodeIFormat_toNat, opcodeOf_toNat, rsOf_val, rtOf_val, imm16Of_toNat]
  omega

theorem encodeJFormat_fields : encodeJFormat (opcodeOf w) (jfieldOf w) = w := by
  apply BitVec.eq_of_toNat_eq
  rw [encodeJFormat_toNat, opcodeOf_toNat, jfieldOf_toNat]
  omega

/-- Reassembling a register-type word clears its bits [10:6] (R104). -/
theorem encodeRFormat_fields :
    encodeRFormat (opcodeOf w) (rsOf w) (rtOf w) (rdOf w) (functOf w) = w &&& 0xFFFFF83F#32 := by
  have kept := and_highAndLowMask_toNat w (n := 11) (m := 6) (by decide) (by decide)
  apply BitVec.eq_of_toNat_eq
  rw [encodeRFormat_toNat, opcodeOf_toNat, rsOf_val, rtOf_val, rdOf_val, functOf_toNat]
  refine Eq.trans ?_ kept.symm
  have regFieldValue (k : Nat) :
      w.toNat / 2 ^ k % 2 ^ 5 = w.toNat / 2 ^ k - w.toNat / 2 ^ (k + 5) * 2 ^ 5 := by
    rw [pow_add, ← Nat.div_div_eq_div_mul]
    omega
  rw [regFieldValue 11, regFieldValue 16, regFieldValue 21]
  omega

/-- The mask of a register-type row keeps the opcode and the function code. -/
theorem and_registerTypeMask :
    w &&& 0xFC00003F#32 = encodeRFormat (opcodeOf w) 0 0 0 (functOf w) := by
  have kept := and_highAndLowMask_toNat w (n := 26) (m := 6) (by decide) (by decide)
  apply BitVec.eq_of_toNat_eq
  rw [encodeRFormat_toNat, opcodeOf_toNat, functOf_toNat]
  refine kept.trans ?_
  simp only [Fin.val_zero]
  omega

/-- The mask of the other rows keeps the opcode. -/
theorem and_opcodeMask : w &&& 0xFC000000#32 = encodeIFormat (opcodeOf w) 0 0 0#16 := by
  have kept := and_highAndLowMask_toNat w (n := 26) (m := 0) (by decide) (by decide)
  apply BitVec.eq_of_toNat_eq
  rw [encodeIFormat_toNat, opcodeOf_toNat]
  refine kept.trans ?_
  simp only [Fin.val_zero, BitVec.toNat_ofNat]
  omega

variable (c : Config)

/-- Every register-type instruction keeps the function code it was decoded from. -/
theorem encode_decodeRegisterType :
    encode (decodeRegisterType w c) c =
      encodeRFormat c.opRtype (rsOf w) (rtOf w) (rdOf w) (functOf w) := by
  rcases decodeRegisterType_cases c w with
    ⟨funct, eq⟩ | ⟨funct, eq⟩ | ⟨funct, eq⟩ | ⟨funct, eq⟩ | ⟨funct, eq⟩ | ⟨-, eq⟩
  · rw [eq, encode, funct]
  · rw [eq, encode, funct]
  · rw [eq, encode, funct]
  · rw [eq, encode, funct]
  · rw [eq, encode, funct]
  · rw [eq, encode]

variable {c}

theorem encode_decode_of_ne_opRtype (ne : opcodeOf w ≠ c.opRtype) :
    encode (decode w c) c = w := by
  rcases decode_cases c w with
    ⟨opcode, eq⟩ | ⟨opcode, eq⟩ | ⟨opcode, eq⟩ | ⟨opcode, eq⟩ | ⟨opcode, -⟩ | ⟨-, eq⟩
  · rw [eq, encode, ← opcode, encodeIFormat_fields]
  · rw [eq, encode, ← opcode, encodeIFormat_fields]
  · rw [eq, encode, ← opcode, encodeIFormat_fields]
  · rw [eq, encode, ← opcode, encodeJFormat_fields]
  · exact absurd opcode ne
  · rw [eq, encode]

theorem encode_decode_of_opRtype (distinct : c.NumbersDistinct) (opcode : opcodeOf w = c.opRtype) :
    encode (decode w c) c = w &&& 0xFFFFF83F#32 := by
  rw [decode_of_opRtype distinct opcode, encode_decodeRegisterType, ← opcode, encodeRFormat_fields]

/-- A register-type word decodes like the same word with its bits [10:6] cleared (R104). -/
theorem decode_and_of_opRtype (distinct : c.NumbersDistinct) (opcode : opcodeOf w = c.opRtype) :
    decode (w &&& 0xFFFFF83F#32) c = decode w c := by
  rw [← encode_decode_of_opRtype w distinct opcode]
  exact decode_encode distinct (decode_wellFormed c w)

end

/-! The opcode table (R103), under the standard numbers. -/

section
variable {w : Word} {r : OpcodeRow}

theorem OpcodeRow.selects_iff : r.selects w = true ↔ w &&& r.mask = r.pattern := by
  rw [OpcodeRow.selects, beq_iff_eq]

/-- A row decides a word that it selects and that no row of smaller priority number selects. -/
theorem OpcodeRow.decides_iff :
    r.decides w = true ↔ r.selects w = true ∧
      ∀ r' ∈ opcodeTable, r'.priority < r.priority → r'.selects w = false := by
  simp only [OpcodeRow.decides, Bool.and_eq_true, List.all_eq_true, Bool.not_eq_true',
    Bool.and_eq_false_imp, decide_eq_true_eq]

/-- The row of UNREC selects every word, and of the rows that select a word one of least priority
number decides it. -/
theorem exists_row_decides (w : Word) : ∃ r ∈ opcodeTable, r.decides w = true := by
  have nonempty : (opcodeTable.toFinset.filter (·.selects w = true)).Nonempty :=
    ⟨⟨"UNREC", 0x00000000#32, 0x00000000#32, 3⟩, Finset.mem_filter.mpr
      ⟨by decide, OpcodeRow.selects_iff.mpr BitVec.and_zero⟩⟩
  obtain ⟨r, candidate, least⟩ := Finset.exists_min_image _ OpcodeRow.priority nonempty
  obtain ⟨listed, selects⟩ := Finset.mem_filter.mp candidate
  refine ⟨r, List.mem_toFinset.mp listed, OpcodeRow.decides_iff.mpr ⟨selects, ?_⟩⟩
  intro r' listed' lower
  refine Bool.eq_false_iff.mpr fun selects' => absurd (least r' ?_) (Nat.not_le.mpr lower)
  exact Finset.mem_filter.mpr ⟨List.mem_toFinset.mpr listed', selects'⟩

/-- A listed function code has a register-type row of the first priority. -/
theorem exists_row_selects_of_funct (opcode : opcodeOf w = Config.standard.opRtype)
    (listed : functOf w ∈ Config.standard.functionCodes) :
    ∃ r ∈ opcodeTable, r.priority < 2 ∧ r.selects w = true := by
  have rows : ∀ funct ∈ Config.standard.functionCodes, ∃ r ∈ opcodeTable, r.priority < 2 ∧
      r.mask = 0xFC00003F#32 ∧
      r.pattern = encodeRFormat Config.standard.opRtype 0 0 0 funct := by decide
  obtain ⟨r, inTable, priority, mask, pattern⟩ := rows _ listed
  refine ⟨r, inTable, priority, OpcodeRow.selects_iff.mpr ?_⟩
  rw [mask, pattern, and_registerTypeMask, opcode]

/-- A listed opcode has a row of the first or the second priority. -/
theorem exists_row_selects_of_opcode (listed : opcodeOf w ∈ Config.standard.opcodes) :
    ∃ r ∈ opcodeTable, r.priority < 3 ∧ r.selects w = true := by
  have rows : ∀ opcode ∈ Config.standard.opcodes, ∃ r ∈ opcodeTable, r.priority < 3 ∧
      r.mask = 0xFC000000#32 ∧ r.pattern = encodeIFormat opcode 0 0 0#16 := by decide
  obtain ⟨r, inTable, priority, mask, pattern⟩ := rows _ listed
  refine ⟨r, inTable, priority, OpcodeRow.selects_iff.mpr ?_⟩
  rw [mask, pattern, and_opcodeMask]

/-- The row that decides a word has the name of the decoded instruction: a row of the first priority
by the decoder's branch of its pattern, the two others because no row of smaller number selects. -/
theorem OpcodeRow.mnemonic_of_decides (listed : r ∈ opcodeTable) (decides : r.decides w = true) :
    r.mnemonic = (decode w).mnemonic := by
  obtain ⟨selects, noLower⟩ := OpcodeRow.decides_iff.mp decides
  have matched := OpcodeRow.selects_iff.mp selects
  have distinct := standard_numbersDistinct
  simp only [opcodeTable, List.mem_cons, List.not_mem_nil, or_false] at listed
  rcases listed with rfl | rfl | rfl | rfl | rfl | rfl | rfl | rfl | rfl | rfl | rfl
  · rw [decode_of_matches_lw matched]; rfl
  · rw [decode_of_matches_sw distinct matched]; rfl
  · rw [decode_of_matches_add distinct matched]; rfl
  · rw [decode_of_matches_sub distinct matched]; rfl
  · rw [decode_of_matches_and distinct matched]; rfl
  · rw [decode_of_matches_or distinct matched]; rfl
  · rw [decode_of_matches_slt distinct matched]; rfl
  · rw [decode_of_matches_beq distinct matched]; rfl
  · rw [decode_of_matches_j distinct matched]; rfl
  · have opcode : opcodeOf w = Config.standard.opRtype := opcodeOf_of_matches_encodeIFormat matched
    have unmatched : functOf w ∉ Config.standard.functionCodes := fun inCodes =>
      let ⟨r', listed', priority, selects'⟩ := exists_row_selects_of_funct opcode inCodes
      absurd selects' (by simp [noLower r' listed' priority])
    rw [decode_of_opRtype distinct opcode, decodeRegisterType_of_unmatched unmatched]; rfl
  · have unrecognized : opcodeOf w ∉ Config.standard.opcodes := fun inCodes =>
      let ⟨r', listed', priority, selects'⟩ := exists_row_selects_of_opcode inCodes
      absurd selects' (by simp [noLower r' listed' priority])
    rw [decode_of_unrecognized unrecognized]; rfl

theorem OpcodeRow.eq_of_mnemonic_eq : ∀ r ∈ opcodeTable, ∀ r' ∈ opcodeTable,
    r.mnemonic = r'.mnemonic → r = r' := by decide

end

/-- Settles O3: the lower half of a sign-extended word is the half it was extended from. -/
theorem signExtensionIsIdempotent : Obligations.SignExtensionIsIdempotent := by
  unfold Obligations.SignExtensionIsIdempotent
  intro w
  rw [signExtend16_eq (signExtend16 w), signExtend16_eq w, imm16Of_sext32]

/-- Settles O4: one case per instruction in `decode_encode`, by the decoder's branch of the
assembled opcode and function code and the fields read back. -/
theorem decodeOfEncodeIsIdentity : Obligations.DecodeOfEncodeIsIdentity := by
  unfold Obligations.DecodeOfEncodeIsIdentity
  exact fun c i distinct => decode_encode distinct

/-- Settles O5: a word is the sum of the fields its format decodes; the register format lacks bits
[10:6]. -/
theorem encodeOfDecodeClearsOnlyIgnoredBits : Obligations.EncodeOfDecodeClearsOnlyIgnoredBits := by
  unfold Obligations.EncodeOfDecodeClearsOnlyIgnoredBits
  intro c w distinct
  split
  case isTrue opcode => exact encode_decode_of_opRtype w distinct opcode
  case isFalse ne => exact encode_decode_of_ne_opRtype w ne

/-- Settles O6: the decoder's last branches are reached only by numbers outside the five. -/
theorem decodedInstructionIsWellFormed : Obligations.DecodedInstructionIsWellFormed := by
  unfold Obligations.DecodedInstructionIsWellFormed
  exact decode_wellFormed

/-- Settles O7: both words decode like their common word with bits [10:6] cleared. -/
theorem ignoredBitsSelectNothing : Obligations.IgnoredBitsSelectNothing := by
  unfold Obligations.IgnoredBitsSelectNothing
  refine ⟨fun c w w' distinct opcode same => ?_, by decide, by decide⟩
  have opcode' : opcodeOf w' = c.opRtype := by
    rw [← opcodeOf_and w' 0xFFFFF83F#32 (by decide), ← same, opcodeOf_and w _ (by decide), opcode]
  rw [← decode_and_of_opRtype w distinct opcode, same, decode_and_of_opRtype w' distinct opcode']

/-- Settles O8: some row decides the word and has the instruction's name; names are distinct, so it
is the row of that name. -/
theorem oneTableRowDecidesEveryWord : Obligations.OneTableRowDecidesEveryWord := by
  unfold Obligations.OneTableRowDecidesEveryWord
  refine fun w r listed => ⟨OpcodeRow.mnemonic_of_decides listed, fun named => ?_⟩
  obtain ⟨r', listed', decides⟩ := exists_row_decides w
  have sameName : r.mnemonic = r'.mnemonic :=
    named.trans (OpcodeRow.mnemonic_of_decides listed' decides).symm
  rwa [OpcodeRow.eq_of_mnemonic_eq r listed r' listed' sameName]

/-- Settles O9: the decoder evaluated at the eight words. -/
theorem exampleWordsDecode : Obligations.ExampleWordsDecode := by
  unfold Obligations.ExampleWordsDecode
  decide

end Sys2Proof
end

section
/-! PROOFS. The assembler's label arithmetic (30_encoding.md R112) as the inverse of the targets
that BEQ and J compute (43_control_transfer.md R192, R193), and the two obligations about it. -/

namespace Sys2Proof

open Machine

/-! The branch offset. -/

section
variable (address label : Word) (off : BitVec 16)

theorem assembleBranchOffset_eq_some_iff :
    assembleBranchOffset address label = some off ↔
      4 * off.toInt = (label - (address + 4#32)).toInt := by
  simp only [assembleBranchOffset, Option.ite_none_right_eq_some, Option.some_inj]
  generalize (label - (address + 4#32)).toInt = distance
  constructor
  · rintro ⟨⟨divides, low, high⟩, rfl⟩
    rw [BitVec.toInt_ofInt_eq_self (by decide) (by omega) (by omega)]
    omega
  · rintro rfl
    have bounds := imm16_toInt_bounds off
    rw [Int.mul_ediv_cancel_left _ (by decide), BitVec.ofInt_toInt]
    exact ⟨⟨Int.mul_emod_right 4 _, bounds⟩, rfl⟩

/-- Four times an offset fits in a signed word, so the target determines the signed distance. -/
theorem branchTarget_eq_iff :
    branchTarget (address + 4#32) off = label ↔
      4 * off.toInt = (label - (address + 4#32)).toInt := by
  have bounds := imm16_toInt_bounds off
  have scaled : (BitVec.ofInt 32 (4 * off.toInt)).toInt = 4 * off.toInt :=
    BitVec.toInt_ofInt_eq_self (by decide) (by omega) (by omega)
  rw [branchTarget, sext32_shiftLeft_two, ← eq_sub_iff_add_eq, ← BitVec.toInt_inj, scaled]

/-- The offset exists exactly where it leads to the label. -/
theorem assembleBranchOffset_eq_some_iff_branchTarget :
    assembleBranchOffset address label = some off ↔
      branchTarget (address + 4#32) off = label :=
  (assembleBranchOffset_eq_some_iff address label off).trans
    (branchTarget_eq_iff address label off).symm

end

/-! The jump field. -/

section
variable {address target : Word} {jf : BitVec 26}

theorem extractField_region_eq_iff (a b : Word) :
    extractField a 28 31 = extractField b 28 31 ↔ a.toNat / 2 ^ 28 = b.toNat / 2 ^ 28 := by
  rw [← BitVec.toNat_inj, extractField_toNat, extractField_toNat, Nat.shiftRight_eq_div_pow,
    Nat.shiftRight_eq_div_pow]
  omega

theorem assembleJumpField_eq_some_iff :
    assembleJumpField address target = some jf ↔
      (target.toNat % 4 = 0 ∧ target.toNat / 2 ^ 28 = (address + 4#32).toNat / 2 ^ 28) ∧
        extractField target 2 27 = jf := by
  rw [assembleJumpField, Option.ite_none_right_eq_some, isAligned_iff, extractField_region_eq_iff,
    Option.some_inj]

/-- Bits [1:0] are zero, bits [27:2] are the field and bits [31:28] are the region. -/
theorem jumpTarget_of_assembleJumpField (assembled : assembleJumpField address target = some jf) :
    jumpTarget (address + 4#32) jf = target := by
  obtain ⟨⟨aligned, region⟩, rfl⟩ := assembleJumpField_eq_some_iff.mp assembled
  apply BitVec.eq_of_toNat_eq
  rw [jumpTarget_toNat, extractField_toNat, Nat.shiftRight_eq_div_pow, ← region]
  omega

theorem assembleJumpField_isSome_iff :
    (assembleJumpField address target).isSome = true ↔
      target.toNat % 4 = 0 ∧ target.toNat / 2 ^ 28 = (address + 4#32).toNat / 2 ^ 28 := by
  simp only [Option.isSome_iff_exists, assembleJumpField_eq_some_iff, exists_and_left,
    exists_eq', and_true]

end

/-- Settles O10: the offset exists exactly where its branch target is the label, which is the next
pc of a taken BEQ. -/
theorem assembledBranchReachesItsLabel : Obligations.AssembledBranchReachesItsLabel := by
  unfold Obligations.AssembledBranchReachesItsLabel
  refine ⟨fun s rs rt label off assembled equal => ⟨_, exec_beq_taken off equal,
      (assembleBranchOffset_eq_some_iff_branchTarget ..).mp assembled⟩,
    fun s rs rt label equal => ?_,
    fun address label off => (assembleBranchOffset_eq_some_iff address label off).mp⟩
  simp only [Option.isSome_iff_exists, assembleBranchOffset_eq_some_iff_branchTarget,
    exec_beq_taken _ equal, Host.Outcome.next.injEq, exists_eq_left', State.setPc_pc]

/-- Settles O11: the field is the target's bits [27:2], and the jump puts them back between the
region and two zero bits. -/
theorem assembledJumpReachesItsTarget : Obligations.AssembledJumpReachesItsTarget := by
  unfold Obligations.AssembledJumpReachesItsTarget
  exact ⟨fun s target jf assembled =>
      ⟨_, exec_j jf s, jumpTarget_of_assembleJumpField assembled⟩,
    fun s target => assembleJumpField_isSome_iff⟩

end Sys2Proof
end

section
/-! PROOFS. The invariant and the ports (10_state.md R24, R40, R50 to R54): what each cycle does to
the pc, the data memory and the draw counter, and the invariant that follows; a clock edge by the
ports that select it; and the obligations about reset, the step and the clock edges. -/

namespace Sys2Proof

/-- How many numbers of `draw32()` an instruction uses up (41_register_type.md R166, log entry 4).
-/
def Instr.drawsUsed : Instr → Nat
  | .rtypeUndef _ _ _ _ => 1
  | .lw _ _ _ | .sw _ _ _ | .add _ _ _ | .sub _ _ _ | .and _ _ _ | .or _ _ _ | .slt _ _ _
  | .beq _ _ _ | .j _ | .unrec _ => 0

end Sys2Proof

namespace Sys2Proof.Machine

/-! What an instruction does to the pc, the data memory and the draw counter, whatever the
parameters. -/

section
variable {c : Config} {i : Instr} {s t : State}

/-- Every next pc of an aligned pc is aligned (10_state.md R24). -/
theorem execWith_aligned (h : execWith c i s = .next t) (aligned : s.Aligned) : t.Aligned := by
  have sequential : (s.pc + 4#32).toNat % 4 = 0 := add_four_aligned aligned
  cases i with
  | lw => rwa [execLw_eq_next h, State.Aligned, State.writeReg_advance_pc]
  | sw => rwa [execSw_eq_next h]
  | add | sub | and | or | slt | rtypeUndef =>
    cases h
    rwa [State.Aligned, State.writeReg_advance_pc]
  | beq rs rt imm16 =>
    cases h
    rw [State.Aligned, State.setPc_pc]
    split
    · exact branchTarget_aligned sequential imm16
    · exact sequential
  | j jfield =>
    cases h
    exact jumpTarget_aligned _ jfield
  | unrec =>
    cases h
    exact sequential

/-- SW writes one word below the memory's size, and no other instruction writes the data memory. -/
theorem execWith_dmem_wf (h : execWith c i s = .next t) (canonical : s.dmem.wf) : t.dmem.wf := by
  cases i with
  | lw => rwa [execLw_eq_next h, State.advance_dmem, State.writeReg_dmem]
  | sw =>
    rw [execSw_eq_next h]
    exact Memory.write_wf canonical (wordIndex_lt _) _
  | add | sub | and | or | slt | rtypeUndef =>
    cases h
    rwa [State.advance_dmem, State.writeReg_dmem]
  | beq | j | unrec =>
    cases h
    exact canonical

theorem execWith_drawCount (h : execWith c i s = .next t) :
    t.drawCount = s.drawCount + i.drawsUsed := by
  cases i with
  | lw => rw [execLw_eq_next h, State.advance_drawCount, State.writeReg_drawCount]; rfl
  | sw => rw [execSw_eq_next h]; rfl
  | add | sub | and | or | slt | rtypeUndef =>
    cases h
    exact State.writeReg_drawCount ..
  | beq | j | unrec =>
    cases h
    rfl

end

/-! The invariant, kept by a cycle and by every edge. -/

section
variable {c : Config} {s t : State}

theorem stepWith_inv (inv : s.Inv) (h : stepWith c s = .next t) : t.Inv := by
  obtain ⟨aligned, dmemWf, imemWf⟩ := inv
  obtain ⟨-, run⟩ := stepWith_eq_next h
  exact ⟨execWith_aligned run aligned, execWith_dmem_wf run dmemWf, (stepWith_imem h).symm ▸ imemWf⟩

theorem step_inv (inv : s.Inv) (h : step s = .next t) : t.Inv :=
  stepWith_inv inv ((stepWith_standard s).trans h)

theorem resetEdge_inv (aligned : c.ResetPcAligned) (inv : s.Inv) : (resetEdge s c).Inv := by
  obtain ⟨-, dmemWf, imemWf⟩ := inv
  refine ⟨aligned, ?_, ?_⟩
  · rw [resetEdge_dmem]
    split
    · exact Memory.nil_wf
    · exact dmemWf
  · rw [resetEdge_imem]
    split
    · exact Memory.nil_wf
    · exact imemWf

theorem setInstruction_inv (inv : s.Inv) (a w : Word) : (s.setInstruction a w).Inv := by
  obtain ⟨aligned, dmemWf, imemWf⟩ := inv
  exact ⟨aligned, dmemWf, Memory.write_wf imemWf (wordIndex_lt a) w⟩

theorem setData_inv (inv : s.Inv) (a w : Word) : (s.setData a w).Inv := by
  obtain ⟨aligned, dmemWf, imemWf⟩ := inv
  exact ⟨aligned, Memory.write_wf dmemWf (wordIndex_lt a) w, imemWf⟩

/-- What an edge that answers a next state has done: reset, one of the two loads, a cycle, or hold.
-/
theorem clockEdge_eq_next {p : PortInputs} (h : clockEdge p s c = .next t) :
    t = resetEdge s c ∨ t = s.setInstruction p.ldAddr p.ldData ∨ t = s.setData p.ldAddr p.ldData ∨
      stepWith c s = .next t ∨ t = s := by
  rcases clockEdge_cases p s c with
    ⟨-, edge⟩ | ⟨-, -, -, edge⟩ | ⟨-, -, -, -, edge⟩ | ⟨-, -, -, -, edge⟩ | ⟨-, -, -, edge⟩ |
    ⟨-, -, -, edge⟩ <;> rw [edge] at h
  · exact .inl (Host.Outcome.next.inj h).symm
  · cases h
  · exact .inr (.inl (loadInstruction_eq_next h))
  · exact .inr (.inr (.inl (loadDataWord_eq_next h)))
  · exact .inr (.inr (.inr (.inl h)))
  · exact .inr (.inr (.inr (.inr (Host.Outcome.next.inj h).symm)))

theorem clockEdge_inv {p : PortInputs} (aligned : c.ResetPcAligned) (inv : s.Inv)
    (h : clockEdge p s c = .next t) : t.Inv := by
  rcases clockEdge_eq_next h with rfl | rfl | rfl | run | rfl
  · exact resetEdge_inv aligned inv
  · exact setInstruction_inv inv _ _
  · exact setData_inv inv _ _
  · exact stepWith_inv inv run
  · exact inv

theorem clockEdge_drawCount_le {p : PortInputs} (h : clockEdge p s c = .next t) :
    s.drawCount ≤ t.drawCount := by
  rcases clockEdge_eq_next h with rfl | rfl | rfl | run | rfl
  · exact (resetEdge_drawCount s c).ge
  · exact (State.setInstruction_drawCount ..).ge
  · exact (State.setData_drawCount ..).ge
  · obtain ⟨-, run⟩ := stepWith_eq_next run
    rw [execWith_drawCount run]
    exact Nat.le_add_right ..
  · exact le_rfl

end

/-! A misaligned pc (20_memory.md R71, log entry 18). -/

section
variable {s : State}

theorem fetch_of_not_aligned (misaligned : ¬ s.Aligned) (c : Config) :
    fetch s c = .refused (.misalignedPc s.pc) :=
  fetch_misaligned (Bool.eq_false_iff.mpr (mt s.aligned_iff.mpr misaligned))

theorem stepWith_of_not_aligned (misaligned : ¬ s.Aligned) (c : Config) :
    stepWith c s = .refused (.misalignedPc s.pc) := by
  rw [stepWith, fetch_of_not_aligned misaligned, andThen_refused]

theorem step_of_not_aligned (misaligned : ¬ s.Aligned) :
    step s = .refused (.misalignedPc s.pc) :=
  (stepWith_standard s).symm.trans (stepWith_of_not_aligned misaligned _)

theorem not_aligned_of_step_refused {r : Refusal} (h : step s = .refused r) : ¬ s.Aligned := by
  intro aligned
  obtain ⟨t, next, -⟩ := stepCompletesFromEveryAlignedState s aligned
  cases next.symm.trans h

end

/-! A clock edge by its ports (10_state.md R40). -/

section
variable {p : PortInputs} (s : State) (c : Config)

theorem clockEdge_of_rst (rst : p.rst = true) : clockEdge p s c = .next (resetEdge s c) := by
  simp [clockEdge, rst]

section
variable (noReset : p.rst = false)
include noReset

theorem clockEdge_of_run_load (run : p.run = true) (ldEn : p.ldEn = true) :
    clockEdge p s c = .refused .runAndLoad := by
  simp [clockEdge, noReset, run, ldEn]

theorem clockEdge_of_run (run : p.run = true) (ldEn : p.ldEn = false) :
    clockEdge p s c = stepWith c s := by
  simp [clockEdge, noReset, run, ldEn]

theorem clockEdge_of_load (run : p.run = false) (ldEn : p.ldEn = true) :
    clockEdge p s c = if p.ldSel then loadInstruction p.ldAddr p.ldData s c
      else loadDataWord p.ldAddr p.ldData s c := by
  simp [clockEdge, noReset, run, ldEn]

theorem clockEdge_of_hold (run : p.run = false) (ldEn : p.ldEn = false) :
    clockEdge p s c = .next s := by
  simp [clockEdge, noReset, run, ldEn]

end

/-! The host loads look at their address and not at the pc. -/

variable (a w pc : Word)

theorem loadInstruction_misaligned (misaligned : a.toNat % 4 ≠ 0) :
    loadInstruction a w s c = .refused (.misalignedLoadAddress a) :=
  if_neg (mt (isAligned_iff a).mp misaligned)

theorem loadDataWord_misaligned (misaligned : a.toNat % 4 ≠ 0) :
    loadDataWord a w s c = .refused (.misalignedLoadAddress a) :=
  if_neg (mt (isAligned_iff a).mp misaligned)

theorem loadInstruction_setPc : loadInstruction a w (s.setPc pc) c =
    andThen (loadInstruction a w s c) fun t => .next (t.setPc pc) := by
  unfold loadInstruction
  split
  · rw [andThen_assoc]
    rfl
  · rfl

theorem loadDataWord_setPc : loadDataWord a w (s.setPc pc) c =
    andThen (loadDataWord a w s c) fun t => .next (t.setPc pc) := by
  unfold loadDataWord
  split
  · rw [andThen_assoc]
    rfl
  · rfl

end

/-! The registers after reset. -/

theorem resetEdge_regs_getElem (s : State) (c : Config) (i : RegIdx) :
    (resetEdge s c).regs[i.val] = c.resetReg :=
  Vector.getElem_replicate i.isLt

theorem readReg_resetEdge (s : State) (c : Config) (i : RegIdx) :
    (resetEdge s c).readReg i c =
      if c.zeroRegHardwired = true ∧ i = 0 then 0x00000000#32 else c.resetReg := by
  rw [State.readReg, resetEdge_regs_getElem]

/-- Settles O12: each register holds the replicated value, and nothing is listed in a memory. -/
theorem resetStateReadsZeroEverywhere : Obligations.ResetStateReadsZeroEverywhere := by
  unfold Obligations.ResetStateReadsZeroEverywhere
  refine ⟨rfl, fun i => ?_, Memory.read_nil, Memory.read_nil⟩
  rw [readReg_standard]
  exact Vector.getElem_replicate i.isLt

/-- Settles O13: pc 0 is aligned and the empty memory is canonical. -/
theorem resetMeetsTheInvariant : Obligations.ResetMeetsTheInvariant := by
  unfold Obligations.ResetMeetsTheInvariant
  exact ⟨rfl, Memory.nil_wf, Memory.nil_wf⟩

/-- Settles O14: each of the three parts of the invariant is kept by the instruction that the step
runs. -/
theorem stepKeepsTheInvariant : Obligations.StepKeepsTheInvariant := by
  unfold Obligations.StepKeepsTheInvariant
  exact fun s t => step_inv

/-- Settles O15: one case per kind of edge that answers a next state. -/
theorem clockEdgeKeepsTheInvariant : Obligations.ClockEdgeKeepsTheInvariant := by
  unfold Obligations.ClockEdgeKeepsTheInvariant
  exact fun c p s t => clockEdge_inv

/-- Settles O17: the fetch refuses a misaligned pc, and a step from an aligned one completes. -/
theorem onlyMisalignedPcIsRefused : Obligations.OnlyMisalignedPcIsRefused := by
  unfold Obligations.OnlyMisalignedPcIsRefused
  exact fun s =>
    ⟨⟨fun ⟨_, refused⟩ => not_aligned_of_step_refused refused,
        fun misaligned => ⟨_, step_of_not_aligned misaligned⟩⟩,
      not_aligned_of_step_refused, step_of_not_aligned⟩

/-- Settles O18: the fetch of an aligned pc answers the word at the pc. -/
theorem stepRunsTheDecodedInstruction : Obligations.StepRunsTheDecodedInstruction := by
  unfold Obligations.StepRunsTheDecodedInstruction
  intro s i aligned decoded
  rw [step_of_aligned (s.aligned_iff.mp aligned), decoded]

/-- Settles O47: per instruction by `execWith_drawCount`, per edge by its kind. -/
theorem drawNumbersAreNeverReused : Obligations.DrawNumbersAreNeverReused := by
  unfold Obligations.DrawNumbersAreNeverReused
  refine ⟨fun c i s t run => ?_, fun c p s t => clockEdge_drawCount_le⟩
  cases i <;> exact execWith_drawCount run

/-- Settles O48: the edge answers `resetEdge`, whose fields are those of the configuration. -/
theorem resetEdgeRestoresTheResetValues : Obligations.ResetEdgeRestoresTheResetValues := by
  unfold Obligations.ResetEdgeRestoresTheResetValues
  refine ⟨fun p s rst => ⟨_, clockEdge_of_rst s _ rst, rfl, readReg_resetEdge s _, Memory.read_nil,
      Memory.read_nil⟩,
    fun c p s rst => ⟨_, clockEdge_of_rst s c rst, rfl,
      fun i => ⟨resetEdge_regs_getElem s c i, readReg_resetEdge s c i⟩,
      fun clears => ?_, fun keeps => ?_⟩⟩
  · rw [resetEdge_dmem, resetEdge_imem, if_pos clears, if_pos clears]
    exact ⟨Memory.read_nil, Memory.read_nil⟩
  · simp [keeps]

/-- Settles O50: one equation of the clock edge per choice of the ports, and a load's check of its
address. -/
theorem clockEdgeFollowsThePorts : Obligations.ClockEdgeFollowsThePorts := by
  unfold Obligations.ClockEdgeFollowsThePorts
  refine fun p s noReset => ⟨clockEdge_of_run_load s _ noReset,
    fun run ldEn => (clockEdge_of_run s _ noReset run ldEn).trans (stepWith_standard s),
    clockEdge_of_hold s _ noReset, fun run ldEn misaligned => ?_⟩
  rw [clockEdge_of_load s _ noReset run ldEn, loadInstruction_misaligned _ _ _ _ misaligned,
    loadDataWord_misaligned _ _ _ _ misaligned, ite_self]

/-- Settles O54: the dump reads the memory directly, where the fetch checks alignment and range. -/
theorem observationMakesNoFetchCheck : Obligations.ObservationMakesNoFetchCheck := by
  unfold Obligations.ObservationMakesNoFetchCheck
  exact ⟨fun c s => dump_instr s c, fun c s misaligned => fetch_of_not_aligned misaligned c,
    fun c s aligned beyond => fetch_eq_fault.mpr
      ⟨s.aligned_iff.mp aligned, memoryIndex_eq_fault.mpr ⟨beyond, rfl⟩⟩⟩

/-- Settles O55: a hold edge keeps the state, a load edge changes no pc, a reset edge sets every
field but the draw counter, and the run edge fetches. -/
theorem onlyTheRunEdgeLooksAtThePc : Obligations.OnlyTheRunEdgeLooksAtThePc := by
  unfold Obligations.OnlyTheRunEdgeLooksAtThePc
  refine ⟨fun c p s pc noReset noRun => ?_, fun c p s pc rst => ?_,
    fun c p s noReset run noLoad misaligned => ?_⟩
  · cases ldEn : p.ldEn with
    | false =>
      rw [clockEdge_of_hold _ c noReset noRun ldEn, clockEdge_of_hold _ c noReset noRun ldEn,
        andThen_next]
    | true =>
      rw [clockEdge_of_load _ c noReset noRun ldEn, clockEdge_of_load _ c noReset noRun ldEn]
      split
      · exact loadInstruction_setPc ..
      · exact loadDataWord_setPc ..
  · rw [clockEdge_of_rst _ c rst, clockEdge_of_rst _ c rst]
    rfl
  · rw [clockEdge_of_run s c noReset run noLoad, stepWith_of_not_aligned misaligned]

end Sys2Proof.Machine
end

section
/-! PROOFS. The datapath against the decoded step (40_cycle_datapath.md R120 to R150): the class of
each opcode, the operation of each function code, and per class what stage and commit make of a
word; and the obligations about the datapath and the control table. -/

namespace Sys2Proof.Machine

/-! Classification by the opcode (R123), under distinct numbers. -/

section
variable {c : Config}

theorem classify_opLw : classify c.opLw c = .load := if_pos rfl

section
variable (distinct : c.NumbersDistinct)
include distinct

theorem classify_opSw : classify c.opSw c = .store := by
  obtain ⟨lw_ne, -⟩ := distinct.opcodes_ne
  rw [classify, if_neg lw_ne.symm, if_pos rfl]

theorem classify_opBeq : classify c.opBeq c = .branch := by
  obtain ⟨-, -, lw_ne, -, -, sw_ne, -, rtype_ne, -⟩ := distinct.opcodes_ne
  rw [classify, if_neg lw_ne.symm, if_neg sw_ne.symm, if_neg rtype_ne.symm, if_pos rfl]

theorem classify_opJ : classify c.opJ c = .jump := by
  obtain ⟨-, -, -, lw_ne, -, -, sw_ne, -, rtype_ne, beq_ne⟩ := distinct.opcodes_ne
  rw [classify, if_neg lw_ne.symm, if_neg sw_ne.symm, if_neg rtype_ne.symm, if_neg beq_ne.symm,
    if_pos rfl]

end

/-! The decoder's register-type half and the ALU dispatch match the function code alike (R131). -/

/-- The register-type instruction of an ALU operation, with the operands of a word. -/
def instrOfAluOp (w : Word) : AluOp → Instr
  | .add => .add (rdOf w) (rsOf w) (rtOf w)
  | .sub => .sub (rdOf w) (rsOf w) (rtOf w)
  | .and => .and (rdOf w) (rsOf w) (rtOf w)
  | .or => .or (rdOf w) (rsOf w) (rtOf w)
  | .slt => .slt (rdOf w) (rsOf w) (rtOf w)
  | .undef => .rtypeUndef (rdOf w) (rsOf w) (rtOf w) (functOf w)

theorem decodeRegisterType_eq_instrOfAluOp (w : Word) :
    decodeRegisterType w c = instrOfAluOp w (aluOpOfFunct (functOf w) c) := by
  unfold decodeRegisterType aluOpOfFunct
  split_ifs <;> rfl

/-! What a cycle makes of a fetched word, class by class. -/

/-- Steps 2 to 13 of the cycle, on a fetched word. -/
def stageAndCommit (w : Word) (s : State) (c : Config) : Result State :=
  andThen (stage w s c) fun t => commit t s c

variable {w : Word} (s : State)

/-- A staged register write with the sequential pc is a register result, of the state in which the
draw of the cycle is counted. -/
theorem commit_regWrite (rd : RegIdx) (v : Word) (drew : Bool) :
    commit ⟨some (rd, v), none, s.pcPlus4, drew⟩ s c =
      registerResult rd v (if drew then s.countDraw else s) c := by
  cases drew <;>
    simp [commit, commitMem, commitReg, registerResult, State.advance, State.pcPlus4]

theorem stageAndCommit_load (cls : classify (opcodeOf w) c = .load) :
    stageAndCommit w s c = execLw (rtOf w) (rsOf w) (imm16Of w) s c := by
  rw [stageAndCommit, stage_load s cls, andThen_assoc]
  exact congrArg _ (funext fun v => commit_regWrite s (rtOf w) v false)

theorem stageAndCommit_store (cls : classify (opcodeOf w) c = .store) :
    stageAndCommit w s c = execSw (rtOf w) (rsOf w) (imm16Of w) s c := by
  rw [stageAndCommit, stage_store s cls, execSw, storeWord, andThen_assoc]
  exact andThen_assoc ..

theorem stageAndCommit_rtype (cls : classify (opcodeOf w) c = .rtype) :
    stageAndCommit w s c = execWith c (decodeRegisterType w c) s := by
  rw [stageAndCommit, stage_rtype s cls, andThen_next, commit_regWrite,
    decodeRegisterType_eq_instrOfAluOp]
  cases aluOpOfFunct (functOf w) c <;> rfl

theorem stageAndCommit_branch (cls : classify (opcodeOf w) c = .branch) :
    stageAndCommit w s c = execBeq (rsOf w) (rtOf w) (imm16Of w) s c := by
  rw [stageAndCommit, stage_branch s cls]
  rfl

theorem stageAndCommit_jump (cls : classify (opcodeOf w) c = .jump) :
    stageAndCommit w s c = execJ (jfieldOf w) s := by
  rw [stageAndCommit, stage_jump s cls]
  rfl

theorem stageAndCommit_unrecognized (cls : classify (opcodeOf w) c = .unrecognized) :
    stageAndCommit w s c = execUnrec w s := by
  rw [stageAndCommit, stage_unrecognized s cls]
  rfl

/-- On every word the datapath does what the decoded instruction means. -/
theorem stageAndCommit_eq_execWith (distinct : c.NumbersDistinct) (w : Word) :
    stageAndCommit w s c = execWith c (decode w c) s := by
  rcases decode_cases c w with
    ⟨opcode, decoded⟩ | ⟨opcode, decoded⟩ | ⟨opcode, decoded⟩ | ⟨opcode, decoded⟩ |
    ⟨opcode, decoded⟩ | ⟨unrecognized, decoded⟩ <;> rw [decoded]
  · exact stageAndCommit_load s (by rw [opcode, classify_opLw])
  · exact stageAndCommit_store s (by rw [opcode, classify_opSw distinct])
  · exact stageAndCommit_branch s (by rw [opcode, classify_opBeq distinct])
  · exact stageAndCommit_jump s (by rw [opcode, classify_opJ distinct])
  · exact stageAndCommit_rtype s (by rw [opcode, classify_opRtype distinct])
  · exact stageAndCommit_unrecognized s (classify_of_unrecognized unrecognized)

theorem datapathCycle_eq_stepWith (distinct : c.NumbersDistinct) :
    datapathCycle s c = stepWith c s :=
  congrArg _ (funext fun w => stageAndCommit_eq_execWith s distinct w)

end

/-- Settles O19: after the common fetch, the classes of the datapath are the branches of the
decoder. -/
theorem datapathCycleIsTheDecodedStep : Obligations.DatapathCycleIsTheDecodedStep := by
  unfold Obligations.DatapathCycleIsTheDecodedStep
  exact ⟨fun c s distinct => datapathCycle_eq_stepWith s distinct,
    fun s => (datapathCycle_eq_stepWith s standard_numbersDistinct).trans (stepWith_standard s)⟩

/-- Settles O45: the six rows of the table. -/
theorem controlTableInvariants : Obligations.ControlTableInvariants := by
  unfold Obligations.ControlTableInvariants
  intro k
  cases k <;> decide

end Sys2Proof.Machine
end

section
/-! PROOFS. Register-type instructions, continued (41_register_type.md R162, R165, R166, R170,
R171): the comparison under both readings, the five operations as functions of their operands, the
word of an address that was never loaded; and the obligations about SUB, SLT and RTYPE_UNDEF. -/

namespace Sys2Proof.Machine

/-! Set-less-than (R165, R170). -/

section
variable (a b : Word) {c : Config}

theorem setLessThan_signed (signed : c.sltSigned = true) :
    setLessThan a b c = if a.toInt < b.toInt then 0x00000001#32 else 0x00000000#32 :=
  if_pos signed

theorem setLessThan_unsigned (unsigned : c.sltSigned = false) :
    setLessThan a b c = if a.toNat < b.toNat then 0x00000001#32 else 0x00000000#32 :=
  if_neg (Bool.eq_false_iff.mp unsigned)

theorem setLessThan_eq_one_iff_signed (signed : c.sltSigned = true) :
    setLessThan a b c = 0x00000001#32 ↔ a.toInt < b.toInt := by
  rw [setLessThan_signed a b signed, ite_eq_left_iff]
  simp

theorem setLessThan_eq_one_iff_unsigned (unsigned : c.sltSigned = false) :
    setLessThan a b c = 0x00000001#32 ↔ a.toNat < b.toNat := by
  rw [setLessThan_unsigned a b unsigned, ite_eq_left_iff]
  simp

variable (c) in
theorem setLessThan_eq_zero_or_one :
    setLessThan a b c = 0x00000000#32 ∨ setLessThan a b c = 0x00000001#32 := by
  cases signed : c.sltSigned with
  | true => exact setLessThan_signed a b signed ▸ (ite_eq_or_eq ..).symm
  | false => exact setLessThan_unsigned a b signed ▸ (ite_eq_or_eq ..).symm

/-- Two truth values agree where they are 1 for the same operands. -/
theorem setLessThan_eq_iff (c c' : Config) : setLessThan a b c = setLessThan a b c' ↔
    (setLessThan a b c = 0x00000001#32 ↔ setLessThan a b c' = 0x00000001#32) := by
  rcases setLessThan_eq_zero_or_one a b c with h | h <;>
    rcases setLessThan_eq_zero_or_one a b c' with h' | h' <;> simp [h, h']

theorem getLsbD_signBit : a.getLsbD 31 = decide (2 ^ 31 ≤ a.toNat) :=
  (BitVec.msb_eq_getLsbD_last a).symm.trans (BitVec.msb_eq_decide a)

/-- The sign bit moves a value below all values without it, where as a number it is above them. -/
theorem lt_signed_iff_unsigned_iff :
    (a.toInt < b.toInt ↔ a.toNat < b.toNat) ↔ a.getLsbD 31 = b.getLsbD 31 := by
  have ha := a.isLt
  have hb := b.isLt
  rw [getLsbD_signBit, getLsbD_signBit, decide_eq_decide, BitVec.toInt_eq_toNat_cond,
    BitVec.toInt_eq_toNat_cond]
  split <;> split <;> omega

end

/-! The five operations with a result of their own (R171). -/

/-- Each of the five writes a function of its two operand values. -/
theorem exec_registerOperation {op : RegIdx → RegIdx → RegIdx → Instr}
    (listed : op ∈ [Instr.add, Instr.sub, Instr.and, Instr.or, Instr.slt]) :
    ∃ result : Word → Word → Word, ∀ (rd rs rt : RegIdx) (s : State), exec (op rd rs rt) s =
      .next (s.writeReg rd (result (s.readReg rs) (s.readReg rt))).advance := by
  simp only [List.mem_cons, List.not_mem_nil, or_false] at listed
  rcases listed with rfl | rfl | rfl | rfl | rfl
  · exact ⟨_, exec_add⟩
  · exact ⟨_, exec_sub⟩
  · exact ⟨_, exec_and⟩
  · exact ⟨_, exec_or⟩
  · exact ⟨setLessThan, exec_slt⟩

/-! RTYPE_UNDEF (R166). -/

/-- The frame of a register write that used up a number of `draw32()`. -/
theorem countDraw_writeReg_advance_frame (s : State) (rd : RegIdx) (v : Word) :
    SameRegsBut (some rd) s (s.countDraw.writeReg rd v).advance ∧
      SameDataBut none s (s.countDraw.writeReg rd v).advance ∧
      SameProgram s (s.countDraw.writeReg rd v).advance ∧
      (s.countDraw.writeReg rd v).advance.drawCount = s.drawCount + 1 :=
  writeReg_advance_frame s.countDraw rd v

theorem Memory.read_of_not_listed {m : Memory} {a : Nat} (h : ∀ p ∈ m, p.1 ≠ a) :
    m.read a = Memory.unlisted := by
  induction m with
  | nil => rfl
  | cons p m ih =>
    obtain ⟨k, v⟩ := p
    obtain ⟨ne, others⟩ := List.forall_mem_cons.mp h
    rw [Memory.read_cons, if_neg ne, ih others]

/-- The word of an address that was never loaded (30_encoding.md R108). -/
theorem decode_unlisted : decode Memory.unlisted = .rtypeUndef 0 0 0 0#6 := by decide

/-- Settles O21: the row's match by `decode_of_matches_sub`; the written difference is read back,
and the rest is the frame of a register write. -/
theorem subWritesTheDifference : Obligations.SubWritesTheDifference := by
  unfold Obligations.SubWritesTheDifference
  refine ⟨fun c w => decode_of_matches_sub, fun rd rs rt s =>
    ⟨_, exec_sub rd rs rt s, State.writeReg_advance_pc .., ?_, writeReg_advance_frame ..⟩,
    fun rd rs s => ⟨_, exec_sub rd rs rs s, ?_⟩⟩
  · rw [State.readReg_writeReg_advance]
    exact alu_sub_toNat (s.readReg rs) (s.readReg rt) 0#32 Config.standard
  · rw [State.readReg_writeReg_advance, BitVec.sub_self]

/-- Settles O24: as for SUB, with the comparison of the standard configuration. -/
theorem sltWritesTheSignedComparison : Obligations.SltWritesTheSignedComparison := by
  unfold Obligations.SltWritesTheSignedComparison
  refine ⟨fun c w => decode_of_matches_slt, fun rd rs rt s =>
    ⟨_, exec_slt rd rs rt s, State.writeReg_advance_pc .., ?_, writeReg_advance_frame ..⟩⟩
  rw [State.readReg_writeReg_advance, setLessThan_signed _ _ rfl]

/-- Settles O25: the word by the last branch of the register-type decoder; the free value is read
back like any other, and the rest is the frame of the write. -/
theorem unmatchedFunctionCodeWritesAFreeValue :
    Obligations.UnmatchedFunctionCodeWritesAFreeValue := by
  unfold Obligations.UnmatchedFunctionCodeWritesAFreeValue
  refine ⟨fun c w distinct opcode unmatched => ?_, fun rd rs rt funct s =>
    ⟨_, exec_rtypeUndef rd rs rt funct s, State.writeReg_advance_pc ..,
      State.readReg_writeReg_advance .., countDraw_writeReg_advance_frame ..⟩⟩
  rw [decode_of_opRtype distinct opcode, decodeRegisterType_of_unmatched unmatched]

/-- Settles O26: each reading by its equation; they differ where exactly one operand has the sign
bit. -/
theorem setLessThanIsExactUnderBothReadings : Obligations.SetLessThanIsExactUnderBothReadings := by
  unfold Obligations.SetLessThanIsExactUnderBothReadings
  refine ⟨fun c a b => ⟨setLessThan_eq_zero_or_one a b c, setLessThan_eq_one_iff_signed a b,
    setLessThan_eq_one_iff_unsigned a b⟩, fun c c' a b signed unsigned => not_congr ?_⟩
  rw [setLessThan_eq_iff, setLessThan_eq_one_iff_signed a b signed,
    setLessThan_eq_one_iff_unsigned a b unsigned, lt_signed_iff_unsigned_iff]

/-- Settles O28: both states write the same function of the same operand values. -/
theorem registerResultDependsOnlyOnTheOperands :
    Obligations.RegisterResultDependsOnlyOnTheOperands := by
  unfold Obligations.RegisterResultDependsOnlyOnTheOperands
  intro rd rs rt s s' t t' op listed sameRs sameRt run run'
  obtain ⟨result, execEq⟩ := exec_registerOperation listed
  cases (execEq rd rs rt s).symm.trans run
  cases (execEq rd rs rt s').symm.trans run'
  rw [State.readReg_writeReg_advance, State.readReg_writeReg_advance, sameRs, sameRt]

/-- Settles O40: an unlisted word reads as zero, which decodes to RTYPE_UNDEF with rd = 0. -/
theorem unloadedInstructionWritesRegisterZeroOnly :
    Obligations.UnloadedInstructionWritesRegisterZeroOnly := by
  unfold Obligations.UnloadedInstructionWritesRegisterZeroOnly
  intro s aligned notLoaded
  have run : step s = exec (.rtypeUndef 0 0 0 0#6) s := by
    rw [step_of_aligned (s.aligned_iff.mp aligned), Memory.read_of_not_listed notLoaded,
      decode_unlisted]
  obtain ⟨regs, data, program, -⟩ := countDraw_writeReg_advance_frame s 0 _
  exact ⟨_, run.trans (exec_rtypeUndef ..), State.writeReg_advance_pc .., regs, data, program⟩

end Sys2Proof.Machine
end

section
/-! PROOFS. Data words over runs, and settled runs: the policy for misaligned data addresses
(20_memory.md R72), the frame of every instruction (10_state.md R31), a data word over any number of
cycles that do not store to it (R76, R78, 42_load_store.md R183), the states a step leaves fixed
(70_reset_and_hazards.md R262); and the five obligations that follow. -/

namespace Sys2Proof.Machine

/-! A misaligned data address where the configuration refuses it (R72). -/

section
variable {c : Config} {rt rs : RegIdx} {imm16 : BitVec 16} {s : State}

theorem dataIndex_of_refuse {a : Word} (policy : c.dmemMisalign = .refuse)
    (misaligned : a.toNat % 4 ≠ 0) : dataIndex a c = .refused (.misalignedData a) :=
  if_pos ⟨policy, Bool.eq_false_iff.mpr (mt (isAligned_iff a).mp misaligned)⟩

variable (policy : c.dmemMisalign = .refuse)
  (misaligned : (effectiveAddress rs imm16 s c).toNat % 4 ≠ 0)
include policy misaligned

theorem execLw_of_refuse : execLw rt rs imm16 s c =
    .refused (.misalignedData (effectiveAddress rs imm16 s c)) := by
  rw [execLw, loadWord, dataIndex_of_refuse policy misaligned, andThen_refused, andThen_refused]

theorem execSw_of_refuse : execSw rt rs imm16 s c =
    .refused (.misalignedData (effectiveAddress rs imm16 s c)) := by
  rw [execSw, storeWord, dataIndex_of_refuse policy misaligned, andThen_refused, andThen_refused]

end

/-! The frame of an instruction and of a step. -/

section
variable {i : Instr} {s t : State}

/-- One case per instruction: a register write, a data word write, or a step that sets only the pc.
-/
theorem exec_frame (canonical : s.dmem.wf) (h : exec i s = .next t) :
    SameRegsBut i.writtenReg s t ∧ SameDataBut (i.storedWord s) s t ∧ SameProgram s t ∧
      (i.writtenReg = none ∨ i.storedWord s = none) := by
  cases i with
  | lw rt rs imm16 =>
    cases (exec_lw rs rt imm16 s).symm.trans h
    obtain ⟨regs, data, program, -⟩ := writeReg_advance_frame s rt _
    exact ⟨regs, data, program, .inr rfl⟩
  | sw rt rs imm16 =>
    cases (exec_sw rs rt imm16 s).symm.trans h
    obtain ⟨regs, data, program, -⟩ := setData_advance_frame s _ _ canonical
    exact ⟨regs, data, program, .inl rfl⟩
  | add rd | sub rd | and rd | or rd | slt rd =>
    cases h
    obtain ⟨regs, data, program, -⟩ := writeReg_advance_frame s rd _
    exact ⟨regs, data, program, .inr rfl⟩
  | rtypeUndef rd rs rt funct =>
    cases h
    obtain ⟨regs, data, program, -⟩ := countDraw_writeReg_advance_frame s rd _
    exact ⟨regs, data, program, .inr rfl⟩
  | beq | j | unrec =>
    cases h
    obtain ⟨regs, data, program, -⟩ := setPc_frame s _
    exact ⟨regs, data, program, .inl rfl⟩

theorem step_of_nextInstr (aligned : s.Aligned) (next : s.nextInstr = i) : step s = exec i s := by
  rw [step_of_aligned (s.aligned_iff.mp aligned), ← next, State.nextInstr]

theorem step_dmem_read {k : Nat} (inv : s.Inv) (notStored : s.nextInstr.storedWord s ≠ some k)
    (h : step s = .next t) : t.dmem.read k = s.dmem.read k := by
  obtain ⟨aligned, canonical, -⟩ := inv
  obtain ⟨-, data, -⟩ := exec_frame canonical ((step_of_nextInstr aligned rfl).symm.trans h)
  exact data k notStored

/-- Cycles that do not store to a data word keep it, and the invariant. -/
theorem runsWithoutStoringTo_keeps {k n : Nat} (inv : s.Inv)
    (h : RunsWithoutStoringTo k n s t) : t.Inv ∧ t.dmem.read k = s.dmem.read k := by
  induction n generalizing s with
  | zero =>
    obtain rfl : s = t := h
    exact ⟨inv, rfl⟩
  | succ n ih =>
    obtain ⟨notStored, s', run, rest⟩ := h
    obtain ⟨inv', kept⟩ := ih (step_inv inv run) rest
    exact ⟨inv', kept.trans (step_dmem_read inv notStored run)⟩

/-- The step of a store leaves the stored value at its word. -/
theorem step_sw_dmem_read {rt rs : RegIdx} {imm16 : BitVec 16} (inv : s.Inv)
    (next : s.nextInstr = .sw rt rs imm16) (h : step s = .next t) :
    t.dmem.read (wordIndex (effectiveAddress rs imm16 s)) = s.readReg rt := by
  obtain ⟨aligned, canonical, -⟩ := inv
  cases ((step_of_nextInstr aligned next).trans (exec_sw ..)).symm.trans h
  exact s.setData_advance_dmem_read _ _ canonical

end

/-! The states a step leaves fixed (R262). -/

section
variable {s : State}

theorem State.setPc_eq_self_iff {target : Word} : s.setPc target = s ↔ target = s.pc :=
  ⟨fun same => congrArg State.pc same, fun h => h ▸ rfl⟩

theorem pc_ne_pc_add_four (pc : Word) : pc ≠ pc + 4#32 := by
  rw [ne_eq, left_eq_add]
  decide

/-- A branch goes to itself by the offset -1 and by no other. -/
theorem branchTarget_eq_self_iff {pc : Word} {imm16 : BitVec 16} :
    branchTarget (pc + 4#32) imm16 = pc ↔ imm16 = 0xFFFF#16 := by
  have back : (pc - (pc + 4#32)).toInt = -4 := by
    rw [sub_add_cancel_left]
    decide
  have minusOne : (0xFFFF#16).toInt = -1 := by decide
  rw [branchTarget_eq_iff, back, ← BitVec.toInt_inj, minusOne]
  omega

theorem exec_beq_eq_self_iff {rs rt : RegIdx} {imm16 : BitVec 16} :
    exec (.beq rs rt imm16) s = .next s ↔ imm16 = 0xFFFF#16 ∧ s.readReg rs = s.readReg rt := by
  rw [exec_beq, Host.Outcome.next.injEq, State.setPc_eq_self_iff]
  split
  case isTrue equal => rw [branchTarget_eq_self_iff, and_iff_left equal]
  case isFalse unequal =>
    exact iff_of_false (pc_ne_pc_add_four s.pc).symm fun h => unequal h.2

theorem exec_j_eq_self_iff {jfield : BitVec 26} :
    exec (.j jfield) s = .next s ↔ jumpTarget s.pcPlus4 jfield = s.pc := by
  rw [exec_j, Host.Outcome.next.injEq, State.setPc_eq_self_iff]
  rfl

/-- Only a jump and a branch can keep the pc, all other instructions advance it. -/
theorem exec_eq_self_iff {i : Instr} : exec i s = .next s ↔
    (∃ jfield, i = .j jfield ∧ jumpTarget s.pcPlus4 jfield = s.pc) ∨
      ∃ rs rt, i = .beq rs rt 0xFFFF#16 ∧ s.readReg rs = s.readReg rt := by
  constructor
  · intro fixed
    obtain ⟨t, run, pc⟩ := nextPcOfEveryInstruction i s
    cases run.symm.trans fixed
    cases i with
    | beq rs rt imm16 =>
      obtain ⟨rfl, equal⟩ := exec_beq_eq_self_iff.mp fixed
      exact .inr ⟨rs, rt, rfl, equal⟩
    | j jfield => exact .inl ⟨jfield, rfl, exec_j_eq_self_iff.mp fixed⟩
    | lw | sw | add | sub | and | or | slt | rtypeUndef | unrec =>
      exact absurd pc (pc_ne_pc_add_four s.pc)
  · rintro (⟨jfield, rfl, target⟩ | ⟨rs, rt, rfl, equal⟩)
    · exact exec_j_eq_self_iff.mpr target
    · exact exec_beq_eq_self_iff.mpr ⟨rfl, equal⟩

end

/-- On every machine a state that its step leaves fixed stays for any number of steps. -/
theorem run_of_step_eq_self (M : Host.Core) {s : M.State} (fixed : M.step s = .next s) (n : Nat) :
    M.run n s = .next s := by
  induction n with
  | zero => rfl
  | succ n ih =>
    rw [Host.Core.run, fixed]
    exact ih

/-- Settles O31: word index and quotient by 4 are the same number; where the policy refuses, the
word index is never computed. -/
theorem misalignedDataAddressFollowsThePolicy :
    Obligations.MisalignedDataAddressFollowsThePolicy := by
  unfold Obligations.MisalignedDataAddressFollowsThePolicy
  simp only [← wordIndex_eq]
  exact ⟨fun rt rs imm16 s => ⟨_, exec_lw rs rt imm16 s, State.readReg_writeReg_advance ..⟩,
    fun rt rs imm16 s canonical =>
      ⟨_, exec_sw rs rt imm16 s, s.setData_advance_dmem_read _ _ canonical⟩,
    fun c rt rs imm16 s policy misaligned =>
      ⟨execLw_of_refuse policy misaligned, execSw_of_refuse policy misaligned⟩⟩

/-- Settles O33: by induction on the number of cycles, with the invariant. -/
theorem unstoredWordPersistsOverRuns : Obligations.UnstoredWordPersistsOverRuns := by
  unfold Obligations.UnstoredWordPersistsOverRuns
  exact fun k n s t inv run => (runsWithoutStoringTo_keeps inv run).2

/-- Settles O34: the store leaves the value at its word, the cycles between keep it there, and the
load reads that word. -/
theorem storeLoadRoundTripAcrossRuns : Obligations.StoreLoadRoundTripAcrossRuns := by
  unfold Obligations.StoreLoadRoundTripAcrossRuns
  intro n s s1 s2 rt rs ru rv i j inv store run rest load sameWord
  obtain ⟨⟨aligned, -⟩, kept⟩ := runsWithoutStoringTo_keeps (step_inv inv run) rest
  refine ⟨_, (step_of_nextInstr aligned load).trans (exec_lw ..), ?_⟩
  rw [State.readReg_writeReg_advance, sameWord, kept, step_sw_dmem_read inv store run]

/-- Settles O42: by the frame of each instruction's next state. -/
theorem writesOfEveryInstruction : Obligations.WritesOfEveryInstruction := by
  unfold Obligations.WritesOfEveryInstruction
  exact fun i s t => exec_frame

/-- Settles O53: the step is the instruction at the pc, which keeps the state by `exec_eq_self_iff`
exactly where it is one of the two self-loops. -/
theorem quiescentStatesAreTheSelfLoops : Obligations.QuiescentStatesAreTheSelfLoops := by
  unfold Obligations.QuiescentStatesAreTheSelfLoops
  refine ⟨fun s aligned => ?_, fun s n quiescent => run_of_step_eq_self Sys2Proof.core quiescent n⟩
  rw [State.Quiescent, step_of_nextInstr aligned rfl, exec_eq_self_iff]

end Sys2Proof.Machine
end
